-- ==== Sys2Proof/Word.lean ====
section
/-! DEFINITION. Word.lean: the word and the byte of the machine (spec/00_scope.md R8, spec/10_state.md R35,
spec/20_memory.md R51 and R56). -/

namespace Sys2Proof

/-- R8: "Word: 16-bit unsigned value". Every register and every memory cell holds one (R35), so arithmetic on
them wraps modulo 65536. -/
abbrev Word := BitVec 16

/-- R51, R56: bytes exist on the host's side of the loader and the snapshot only; the machine has none. -/
abbrev Byte := BitVec 8

end Sys2Proof
end

