-- ==== Sys2Proof/Config.lean ====
section
/-! DEFINITION. Config.lean: what the implementation fixes (spec/00_scope.md R5).

The fixed sizes stand here. The three parameters that R5 calls open have the values of R5's table and stand where
they are used, so that a repair can mend them: ModeCost is Machine/Operands.lean `modeCost` (D18, log entry 13),
NONCOMMIT_SP_EFFECTS is Machine/Operands.lean `nonCommitSpEffects` (D10, log entry 6), and DivOverflow is
Machine/Flags.lean `divOverflow` (D14, log entry 10). CYCLE_BITS is "unbounded": the counter is a Nat. The byte order
of the host's byte stream is big-endian and fixed: Decode.lean `wordOfBytes`. The model has no free value: the spec
leaves no value open after its own decisions (spec/93_implementation_defined.md). -/

namespace Sys2Proof.Config

/-- R5, R50: `MEM_WORDS`, "exactly 65536 addressable words", addresses 0x0000 to 0xFFFF. -/
abbrev memWords : Nat := 65536

/-- The number of slots after which a chain of skipped slots can no longer end (R189): the slot that starts it and
one skipped slot at every address. It is the fuel of the recursive form (Machine/Chain.lean, log entry 16). -/
def chainFuel : Nat := memWords + 1

end Sys2Proof.Config
end

