-- ==== Sys2Proof/Syntax.lean ====
section
/-! DEFINITION. Syntax.lean: registers, operand forms and instructions (spec/10_state.md R20 and R21,
spec/30_encoding.md R76 to R79, spec/41_operand_resolution.md R120). -/

namespace Sys2Proof

/-- R20, R21: the eight general registers, in the order of their labels. -/
inductive Reg where
  | A | B | C | X | Y | Z | I | J
  deriving DecidableEq, Repr

/-- R120, R76: the twelve addressing forms. A trailing word is not part of the form: R82 has the decoder read the
instruction word only, and resolution reads the trailing word at the PC of that moment (R74, R104; log entry 19). -/
inductive Operand where
  /-- R123, codes 0x00 to 0x07: a general register. -/
  | reg (r : Reg)
  /-- R124, codes 0x08 to 0x0F: the cell a general register addresses. -/
  | regInd (r : Reg)
  /-- R125, codes 0x10 to 0x17: the cell at a trailing word plus a general register. -/
  | regOff (r : Reg)
  /-- R126, code 0x18. -/
  | pop
  /-- R127, code 0x19. -/
  | peek
  /-- R128, code 0x1A. -/
  | push
  /-- R129, code 0x1B. -/
  | sp
  /-- R130, code 0x1C. -/
  | pc
  /-- R131, code 0x1D. -/
  | o
  /-- R132, code 0x1E: the cell a trailing word addresses. -/
  | nextInd
  /-- R133, code 0x1F: a trailing word as a literal. -/
  | nextLit
  /-- R134, codes 0x20 to 0x3F: an embedded small literal; `k` is its value, 0 to 31 (WellFormed.lean). -/
  | lit (k : Word)
  deriving DecidableEq, Repr

/-- R77, R78, R79: the sixteen instructions, one constructor per row of spec/opcode_table.json. Of a basic
instruction `a` is operand A (first source and destination) and `b` operand B (R72); JSR has one operand (R73). -/
inductive Instr where
  /-- R150 -/
  | set (a b : Operand)
  /-- R151 -/
  | add (a b : Operand)
  /-- R152 -/
  | sub (a b : Operand)
  /-- R153 -/
  | mul (a b : Operand)
  /-- R155 -/
  | div (a b : Operand)
  /-- R156 -/
  | mod (a b : Operand)
  /-- R157 -/
  | shl (a b : Operand)
  /-- R158 -/
  | shr (a b : Operand)
  /-- R159 -/
  | and (a b : Operand)
  /-- R160 -/
  | bor (a b : Operand)
  /-- R161 -/
  | xor (a b : Operand)
  /-- R182 -/
  | ife (a b : Operand)
  /-- R183 -/
  | ifn (a b : Operand)
  /-- R184 -/
  | ifg (a b : Operand)
  /-- R186 -/
  | ifb (a b : Operand)
  /-- R200 -/
  | jsr (b : Operand)
  deriving DecidableEq, Repr

end Sys2Proof
end

