-- ==== Sys2Proof/WellFormed.lean ====
section
/-! DEFINITION. WellFormed.lean: which instruction terms have an encoding. The one check is the range of an embedded
literal (spec/30_encoding.md R76, spec/41_operand_resolution.md R134); every other field is closed by its type. -/

namespace Sys2Proof

/-- R134: "32 codes for embedded small literals 0–31". Every other form is closed by its type. -/
def Operand.wellFormed : Operand → Bool
  | .lit k => decide (k.toNat ≤ 31)
  | .reg _ | .regInd _ | .regOff _ | .pop | .peek | .push | .sp | .pc | .o | .nextInd | .nextLit => true

/-- R81: every operand code is legal in every operand position of every instruction. -/
def Instr.wellFormed : Instr → Bool
  | .set a b | .add a b | .sub a b | .mul a b | .div a b | .mod a b | .shl a b | .shr a b
  | .and a b | .bor a b | .xor a b | .ife a b | .ifn a b | .ifg a b | .ifb a b => a.wellFormed && b.wellFormed
  | .jsr b => b.wellFormed

end Sys2Proof
end

