-- ==== Sys2Proof/Decode.lean ====
section
/-! DEFINITION. Decode.lean: the decoder and the encoder of the instruction word, of a slot (the word with its trailing
words) and of the host's byte stream (spec/30_encoding.md R70 to R82 and R87, spec/20_memory.md R56). The numbers are
decisions D1 to D4 of spec/92_eei_decisions.md (log entry 2). -/

namespace Sys2Proof

/-- Why the decoder gives no instruction. -/
inductive DecodeError where
  /-- R80: primary opcode 0 with an extended opcode other than 0x01. -/
  | unrecognized (w : Word)
  /-- A list of words (or bytes) ends inside a slot. The machine cannot meet this: its memory is circular (R54). -/
  | truncated
  deriving DecidableEq, Repr

/-! ## Fields of the instruction word -/

/-- R70, R71: the primary opcode, bits 3 to 0. -/
def opField (w : Word) : BitVec 4 := w.extractLsb' 0 4

/-- R70, R71, R73: operand A's code, or the extended opcode of a non-basic word, bits 9 to 4. -/
def aField (w : Word) : BitVec 6 := w.extractLsb' 4 6

/-- R70, R71: operand B's code, bits 15 to 10. -/
def bField (w : Word) : BitVec 6 := w.extractLsb' 10 6

/-- R71: `w = (b << 10) | (a << 4) | op`. -/
def joinWord (b a : BitVec 6) (op : BitVec 4) : Word :=
  (b.setWidth 16 <<< 10) ||| (a.setWidth 16 <<< 4) ||| op.setWidth 16

/-! ## Operand codes -/

/-- R21: the general register with an index, in listing order (D4). -/
def regOfIndex : Nat → Reg
  | 0 => .A
  | 1 => .B
  | 2 => .C
  | 3 => .X
  | 4 => .Y
  | 5 => .Z
  | 6 => .I
  | _ => .J

/-- R21: the index of a general register. -/
def Reg.index : Reg → Nat
  | .A => 0
  | .B => 1
  | .C => 2
  | .X => 3
  | .Y => 4
  | .Z => 5
  | .I => 6
  | .J => 7

/-- R76: the form an operand code names (D3). -/
def operandOfCode (c : BitVec 6) : Operand :=
  if c.toNat < 0x08 then .reg (regOfIndex (c.toNat % 8))
  else if c.toNat < 0x10 then .regInd (regOfIndex (c.toNat % 8))
  else if c.toNat < 0x18 then .regOff (regOfIndex (c.toNat % 8))
  else match c.toNat with
    | 0x18 => .pop
    | 0x19 => .peek
    | 0x1A => .push
    | 0x1B => .sp
    | 0x1C => .pc
    | 0x1D => .o
    | 0x1E => .nextInd
    | 0x1F => .nextLit
    | n => .lit (BitVec.ofNat 16 (n - 0x20))

/-- R76: the code of an operand form. -/
def Operand.code : Operand → BitVec 6
  | .reg r => BitVec.ofNat 6 r.index
  | .regInd r => BitVec.ofNat 6 (0x08 + r.index)
  | .regOff r => BitVec.ofNat 6 (0x10 + r.index)
  | .pop => 0x18#6
  | .peek => 0x19#6
  | .push => 0x1A#6
  | .sp => 0x1B#6
  | .pc => 0x1C#6
  | .o => 0x1D#6
  | .nextInd => 0x1E#6
  | .nextLit => 0x1F#6
  | .lit k => BitVec.ofNat 6 (0x20 + k.toNat)

/-! ## The instruction word -/

/-- R77: the basic instruction of a primary opcode; none for 0, the non-basic format (R73). -/
def basicOf : Nat → Option (Operand → Operand → Instr)
  | 0x1 => some .set
  | 0x2 => some .add
  | 0x3 => some .sub
  | 0x4 => some .mul
  | 0x5 => some .div
  | 0x6 => some .mod
  | 0x7 => some .shl
  | 0x8 => some .shr
  | 0x9 => some .and
  | 0xA => some .bor
  | 0xB => some .xor
  | 0xC => some .ife
  | 0xD => some .ifn
  | 0xE => some .ifg
  | 0xF => some .ifb
  | _ => none

/-- R79: the extended opcode of JSR (D2). -/
def jsrExt : BitVec 6 := 0x01#6

/-- R82: `Decode(w)`, total on words. It reads nothing but the word. -/
def decode (w : Word) : Except DecodeError Instr :=
  match basicOf (opField w).toNat with
  | some mk => .ok (mk (operandOfCode (aField w)) (operandOfCode (bField w)))
  | none => if aField w = jsrExt then .ok (.jsr (operandOfCode (bField w))) else .error (.unrecognized w)

/-- R87: the instruction word of an instruction, without its trailing words. -/
def encode : Instr → Word
  | .set a b => joinWord b.code a.code 0x1#4
  | .add a b => joinWord b.code a.code 0x2#4
  | .sub a b => joinWord b.code a.code 0x3#4
  | .mul a b => joinWord b.code a.code 0x4#4
  | .div a b => joinWord b.code a.code 0x5#4
  | .mod a b => joinWord b.code a.code 0x6#4
  | .shl a b => joinWord b.code a.code 0x7#4
  | .shr a b => joinWord b.code a.code 0x8#4
  | .and a b => joinWord b.code a.code 0x9#4
  | .bor a b => joinWord b.code a.code 0xA#4
  | .xor a b => joinWord b.code a.code 0xB#4
  | .ife a b => joinWord b.code a.code 0xC#4
  | .ifn a b => joinWord b.code a.code 0xD#4
  | .ifg a b => joinWord b.code a.code 0xE#4
  | .ifb a b => joinWord b.code a.code 0xF#4
  | .jsr b => joinWord b.code jsrExt 0x0#4

/-! ## Slots: an instruction with its trailing words -/

/-- R74, R75 `owns(c)`: the number of trailing words an operand form owns, 0 or 1. -/
def Operand.owns : Operand → Nat
  | .regOff _ | .nextInd | .nextLit => 1
  | .reg _ | .regInd _ | .pop | .peek | .push | .sp | .pc | .o | .lit _ => 0

/-- R75: the number of trailing words of an instruction; its length is one more. -/
def Instr.trailingWords : Instr → Nat
  | .set a b | .add a b | .sub a b | .mul a b | .div a b | .mod a b | .shl a b | .shr a b
  | .and a b | .bor a b | .xor a b | .ife a b | .ifn a b | .ifg a b | .ifb a b => a.owns + b.owns
  | .jsr b => b.owns

/-- R75: 1, 2 or 3 words. -/
def Instr.length (i : Instr) : Nat := 1 + i.trailingWords

/-- R12: "one instruction with its trailing words, as one unit of the instruction stream". -/
structure Slot where
  instr : Instr
  trailing : List Word
  deriving DecidableEq, Repr

/-- A slot has an encoding when its instruction has one and it brings exactly the words its operands own (R75). -/
def Slot.wellFormed (x : Slot) : Bool := x.instr.wellFormed && x.trailing.length == x.instr.trailingWords

/-- R87: the instruction word "followed by A's trailing word, then B's". -/
def Slot.encode (x : Slot) : List Word := Sys2Proof.encode x.instr :: x.trailing

/-- The slot at the head of a list of words, with the words after it. Total; it rejects an unrecognized word without
looking at what follows (R80) and a slot whose trailing words are not all there. -/
def decodeSlot : List Word → Except DecodeError (Slot × List Word)
  | [] => .error .truncated
  | w :: ws =>
    match decode w with
    | .error e => .error e
    | .ok i =>
      if i.trailingWords ≤ ws.length then .ok (⟨i, ws.take i.trailingWords⟩, ws.drop i.trailingWords)
      else .error .truncated

/-! ## Bytes, on the host's side only -/

/-- R56: "the word is `256 * first_byte + second_byte`". -/
def wordOfBytes (first second : Byte) : Word := BitVec.ofNat 16 (256 * first.toNat + second.toNat)

/-- R56: "word `v` becomes the bytes `v[15:8]` then `v[7:0]`". -/
def bytesOfWord (v : Word) : List Byte := [v.extractLsb' 8 8, v.extractLsb' 0 8]

/-- R56, R62: the words of a program file; none for an odd number of bytes. -/
def wordsOfBytes : List Byte → Option (List Word)
  | [] => some []
  | [_] => none
  | x :: y :: rest => (wordsOfBytes rest).map (wordOfBytes x y :: ·)

/-- R56: the byte stream of the memory serializer. -/
def bytesOfWords (ws : List Word) : List Byte := ws.flatMap bytesOfWord

/-- The decoder on bytes, total on any bytes: the slot at the head of a big-endian byte stream, with the words after
it. An odd byte at the end is a truncated word. -/
def decodeBytes (bs : List Byte) : Except DecodeError (Slot × List Word) :=
  match wordsOfBytes bs with
  | some ws => decodeSlot ws
  | none => .error .truncated

/-! ## The opcode table's numbering -/

/-- The words of an instruction whose bits the opcode table numbers from bit 0 of the first word: the longest slot's
three words (R75), every bit from `nbits` up being 0. -/
def tableWords (nbits w : Nat) : List Word :=
  [BitVec.ofNat 16 (w % 2 ^ nbits), BitVec.ofNat 16 (w % 2 ^ nbits / 2 ^ 16), BitVec.ofNat 16 (w % 2 ^ nbits / 2 ^ 32)]

/-- The words as the host's byte stream stores them (R56), given to the decoder on bytes: what the host asks of every
row of spec/opcode_table.json. -/
def decodeTableWord (nbits w : Nat) : Option Instr :=
  match decodeBytes (bytesOfWords (tableWords nbits w)) with
  | .ok (x, _) => some x.instr
  | .error _ => none

end Sys2Proof
end

