-- ==== Sys2Proof/Machine/State.lean ====
section
/-! DEFINITION. Machine/State.lean: the whole state of the machine and its value after reset (spec/10_state.md R20 to
R36), the reasons a step could stop, and the canonical form of memory. -/

namespace Sys2Proof.Machine

/-- R20, R21: the eight general registers, 16 bits each, none hardwired. -/
structure Regs where
  a : Word
  b : Word
  c : Word
  x : Word
  y : Word
  z : Word
  i : Word
  j : Word
  deriving DecidableEq, Repr

/-- R30: the run state, `STATE`. -/
inductive RunState where
  | init
  | running
  | halted
  deriving DecidableEq, Repr

/-- R50, R51: the store, as (word address, word) pairs. The unit of addressing is the 16-bit word, so a cell is a word
and not a byte (log entry 1). An address that is not listed reads as 0x0000, the reset value of every cell (R34). -/
abbrev Memory := List (Nat × Word)

/-- The canonical form from an address on: addresses strictly rising, below the end of memory, and no cell that holds
what an unlisted cell reads as. -/
def Memory.wfFrom : Nat → Memory → Bool
  | _, [] => true
  | lo, (k, v) :: m => decide (lo ≤ k) && decide (k < Config.memWords) && decide (v ≠ 0#16) && wfFrom (k + 1) m

/-- The canonical form of memory: with it, equal memories are equal data. -/
def Memory.wf (m : Memory) : Bool := Memory.wfFrom 0 m

/-- R20 to R33: "The whole state of the machine is: `R[0..7]`, `PC`, `SP`, `O`, `Mem[0..65535]`, `STATE`, `CYCLES`",
and the commit flag in the flat form of R33. -/
structure State where
  /-- `R[0..7]` (R20) -/
  regs : Regs
  /-- `PC` (R23) -/
  pc : Word
  /-- `SP` (R26) -/
  sp : Word
  /-- `O` (R27), a full 16-bit register -/
  o : Word
  /-- `Mem[0..65535]` (R50) -/
  mem : Memory
  /-- `STATE` (R30) -/
  runState : RunState
  /-- `CYCLES` (R31), unbounded (D18) -/
  cycles : Nat
  /-- `SKIP` (R33): the next slot runs in non-commit mode. The commit flag of R32 is its negation (log entry 7). -/
  skip : Bool
  deriving DecidableEq, Repr

/-- Reasons a step could stop with a fault: NONE. R224: "Nothing else is an exception", and the one exceptional
condition, DecodeError (R210), is a transition to HALTED that the model takes as a next state (log entry 9). Nobody
raises a fault; an empty type is safe. -/
inductive Fault where
  deriving DecidableEq, Repr

/-- Reasons a step could be refused. -/
inductive Refusal where
  /-- An instruction without a meaning yet. No arm of `exec` raises it: every instruction has its meaning. Safe. -/
  | notModelled (mnemonic : String)
  deriving DecidableEq, Repr

/-- R34: "zeroed registers, INIT state, zero cycles" and memory cleared; `SKIP` = 0. The spec gives every one of these
values; the model chose none. -/
def State.reset : State where
  regs := ⟨0#16, 0#16, 0#16, 0#16, 0#16, 0#16, 0#16, 0#16⟩
  pc := 0#16
  sp := 0#16
  o := 0#16
  mem := []
  runState := .init
  cycles := 0
  skip := false

end Sys2Proof.Machine
end

