-- ==== Sys2Proof/Machine/Ops.lean ====
section
/-! DEFINITION. Machine/Ops.lean: the named operations over registers and memory, fetching, charging cycles, and taking
the one exception (spec/00_scope.md R9 and R10, spec/20_memory.md R52 and R53, spec/40_execute_and_dispatch.md R101,
spec/60_exceptions.md R210). -/

namespace Sys2Proof.Machine

/-! ## Memory -/

/-- The content of the cell with a key; an unlisted cell reads as its reset value 0x0000 (R34). -/
def Memory.lookup : Memory → Nat → Word
  | [], _ => 0#16
  | (k, v) :: m, a => if k = a then v else Memory.lookup m a

/-- List a cell with a value that is not 0x0000, keeping the addresses rising. -/
def Memory.insertCell : Memory → Nat → Word → Memory
  | [], a, v => [(a, v)]
  | (k, w) :: m, a, v =>
    if k = a then (a, v) :: m
    else if a < k then (a, v) :: (k, w) :: m
    else (k, w) :: Memory.insertCell m a v

/-- R52 `MemRead(addr, 1)`: always succeeds, changes nothing. -/
def Memory.read (m : Memory) (a : Word) : Word := m.lookup a.toNat

/-- R53 `MemWrite(addr, 1, v)`. Writing 0x0000 takes the cell out of the list, which keeps the canonical form. -/
def Memory.write (m : Memory) (a v : Word) : Memory :=
  if v = 0#16 then m.filter (fun cell => cell.1 ≠ a.toNat) else m.insertCell a.toNat v

/-- R53: store a word. -/
def State.memWrite (s : State) (a v : Word) : State := { s with mem := s.mem.write a v }

/-! ## General registers -/

/-- R9: `R[i]`. -/
def Regs.read (rs : Regs) : Reg → Word
  | .A => rs.a
  | .B => rs.b
  | .C => rs.c
  | .X => rs.x
  | .Y => rs.y
  | .Z => rs.z
  | .I => rs.i
  | .J => rs.j

/-- R9: `R[i] <- v`. -/
def Regs.write (rs : Regs) (r : Reg) (v : Word) : Regs :=
  match r with
  | .A => { rs with a := v }
  | .B => { rs with b := v }
  | .C => { rs with c := v }
  | .X => { rs with x := v }
  | .Y => { rs with y := v }
  | .Z => { rs with z := v }
  | .I => { rs with i := v }
  | .J => { rs with j := v }

/-! ## Cycles, fetch, the end of a slot -/

/-- R31 `Charge(n)`. -/
def State.charge (s : State) (n : Nat) : State := { s with cycles := s.cycles + n }

/-- R101 `Fetch()`, the state after it: PC is one further, modulo 65536. It charges nothing. -/
def State.advance (s : State) : State := { s with pc := s.pc + 1#16 }

/-- R101 `Fetch()`, the word it returns: the one at the PC before the increment. -/
def State.fetched (s : State) : Word := s.mem.read s.pc

/-- R33: whether the next slot runs in commit mode. -/
def State.commit (s : State) : Bool := !s.skip

/-- R33: a completed slot sets `SKIP`: to 1 after a conditional with a false predicate, to 0 after every other. -/
def State.endSlot (s : State) (skipNext : Bool) : State := { s with skip := skipNext }

/-! ## The one exception -/

/-- R210, R217: DecodeError. `STATE` goes to HALTED; the fetch that read the word has already advanced PC, and nothing
else changes: no saved state, no cause, no handler. `SKIP` is cleared because the step is over and the commit flag
"does not survive the step" (R32); DEDUCED, log entry 8. There is no return from it (R218): the only way out of HALTED
is the host's `reset` (Machine/HostEvents.lean). -/
def State.decodeError (s : State) : State := { s with runState := .halted, skip := false }

/-- R30, R221: INIT and HALTED are non-executing; all state survives in both. -/
def State.idle (s : State) : State := s

end Sys2Proof.Machine
end

