-- ==== Sys2Proof/Machine/Flags.lean ====
section
/-! DEFINITION. Machine/Flags.lean: for each arithmetic or logic instruction the function `F_op` of its rule, which
gives the result and the new overflow register, and the base cycle costs (spec/42_arithmetic_logic.md R150 to R166);
for each conditional its predicate (spec/43_conditional_skip.md R182 to R186). Values are computed exactly on Nat and
narrowed at the end (R162). -/

namespace Sys2Proof.Machine

/-- R148: `(res, newO)`; `newO` is a word, or none for "unchanged". -/
structure AluOut where
  res : Word
  newO : Option Word
  deriving DecidableEq, Repr

/-- R150. -/
def fSet (_va vb : Word) : AluOut := ⟨vb, none⟩

/-- R151: the 17-bit sum; O is its carry. -/
def fAdd (va vb : Word) : AluOut :=
  let sum := va.toNat + vb.toNat
  ⟨BitVec.ofNat 16 sum, some (if sum > 65535 then 1#16 else 0#16)⟩

/-- R152: O is 0xFFFF on a borrow. -/
def fSub (va vb : Word) : AluOut := ⟨va - vb, some (if vb.toNat > va.toNat then 0xFFFF#16 else 0#16)⟩

/-- R153: the 32-bit product; O is its high half. -/
def fMul (va vb : Word) : AluOut :=
  let prod := va.toNat * vb.toNat
  ⟨BitVec.ofNat 16 prod, some (BitVec.ofNat 16 (prod >>> 16))⟩

/-- R5, R155 `DivOverflow(a, b)`: `((a << 16) div b) mod 65536`, the spec's decision D14, from general knowledge (log
entry 10). -/
def divOverflow (va vb : Word) : Word := BitVec.ofNat 16 ((va.toNat <<< 16) / vb.toNat)

/-- R155: unsigned division (R154); divisor zero forces 0 and O = 0. -/
def fDiv (va vb : Word) : AluOut :=
  if vb = 0#16 then ⟨0#16, some 0#16⟩
  else ⟨BitVec.ofNat 16 (va.toNat / vb.toNat), some (divOverflow va vb)⟩

/-- R156: unsigned remainder; O is written only when the divisor is zero (C2). -/
def fMod (va vb : Word) : AluOut :=
  if vb = 0#16 then ⟨0#16, some 0#16⟩
  else ⟨BitVec.ofNat 16 (va.toNat % vb.toNat), none⟩

/-- R157: shift left by all of `vb` in a 32-bit window (D15, log entry 11). -/
def fShl (va vb : Word) : AluOut :=
  let wide := (va.toNat <<< vb.toNat) % 2 ^ 32
  ⟨BitVec.ofNat 16 wide, some (BitVec.ofNat 16 (wide >>> 16))⟩

/-- R158: `va` in the high half of a 32-bit window, shifted right by all of `vb` (D15, log entry 11). -/
def fShr (va vb : Word) : AluOut :=
  let wide := (va.toNat <<< 16) >>> vb.toNat
  ⟨BitVec.ofNat 16 (wide >>> 16), some (BitVec.ofNat 16 wide)⟩

/-- R159. -/
def fAnd (va vb : Word) : AluOut := ⟨va &&& vb, none⟩

/-- R160. -/
def fBor (va vb : Word) : AluOut := ⟨va ||| vb, none⟩

/-- R161. -/
def fXor (va vb : Word) : AluOut := ⟨va ^^^ vb, none⟩

/-- R166: SET, AND, BOR, XOR. -/
def baseMove : Nat := 1

/-- R166: ADD, SUB, MUL, SHL, SHR. -/
def baseArith : Nat := 2

/-- R166: DIV, MOD. -/
def baseDivide : Nat := 3

/-- R200: the body of JSR. -/
def baseCall : Nat := 2

/-- R180, R190: a conditional charges 2 when its predicate is true and one extra cycle when it is false. -/
def condCost (holds : Bool) : Nat := if holds then 2 else 3

/-- R182. -/
def pIfe (va vb : Word) : Bool := va == vb

/-- R183. -/
def pIfn (va vb : Word) : Bool := va != vb

/-- R184: an unsigned comparison. -/
def pIfg (va vb : Word) : Bool := decide (va.toNat > vb.toNat)

/-- R186. -/
def pIfb (va vb : Word) : Bool := (va &&& vb) != 0#16

end Sys2Proof.Machine
end

