-- ==== Sys2Proof/Machine/Operands.lean ====
section
/-! DEFINITION. Machine/Operands.lean: operand resolution in all twelve forms, handles, and the store through a handle
(spec/41_operand_resolution.md R120 to R141). -/

namespace Sys2Proof.Machine

/-- R10: "A handle is one of `Reg(i)` ..., `RegPC`, `RegSP`, `RegO`, `Mem(addr)` ..., or `None`". -/
inductive Handle where
  | reg (r : Reg)
  | regPC
  | regSP
  | regO
  | mem (addr : Word)
  | none
  deriving DecidableEq, Repr

/-- What resolving an operand gives: the value, the handle (R121), and the state after the side effects. -/
structure Resolved where
  value : Word
  handle : Handle
  state : State
  deriving DecidableEq, Repr

/-- R139 `ModeCost(c)`: 1 for the forms that own a trailing word, else 0. The numbers are the spec's decision D18, from
general knowledge (log entry 13). -/
def modeCost : Operand → Nat
  | .regOff _ | .nextInd | .nextLit => 1
  | .reg _ | .regInd _ | .pop | .peek | .push | .sp | .pc | .o | .lit _ => 0

/-- R5, R136 `NONCOMMIT_SP_EFFECTS`: whether POP and PUSH move SP in a skipped slot; false (D10, log entry 6). -/
def nonCommitSpEffects : Bool := false

/-- R126, R128, R136: SP moves in commit mode only. -/
def spMoves (commit : Bool) : Bool := commit || nonCommitSpEffects

/-- R121 `Resolve(code, commit)`: charge the form's cost, then the rule of the form. Total: it never fails. Each call
is one resolution (R140); every instruction calls it once per operand. -/
def resolve (commit : Bool) (x : Operand) (s₀ : State) : Resolved :=
  let s := s₀.charge (modeCost x)
  match x with
  | .reg r => ⟨s.regs.read r, .reg r, s⟩
  | .regInd r => ⟨s.mem.read (s.regs.read r), .mem (s.regs.read r), s⟩
  | .regOff r =>
    let addr := s.fetched + s.regs.read r
    ⟨s.mem.read addr, .mem addr, s.advance⟩
  | .pop => ⟨s.mem.read s.sp, .mem s.sp, if spMoves commit then { s with sp := s.sp + 1#16 } else s⟩
  | .peek => ⟨s.mem.read s.sp, .mem s.sp, s⟩
  | .push =>
    let addr := s.sp - 1#16
    ⟨s.mem.read addr, .mem addr, if spMoves commit then { s with sp := addr } else s⟩
  | .sp => ⟨s.sp, .regSP, s⟩
  | .pc => ⟨s.pc, .regPC, s⟩
  | .o => ⟨s.o, .regO, s⟩
  | .nextInd => ⟨s.mem.read s.fetched, .mem s.fetched, s.advance⟩
  | .nextLit => ⟨s.fetched, .none, s.advance⟩
  | .lit k => ⟨k, .none, s⟩

/-- R137 `Store(handle, v)`: "single conditional write accessor"; through `None` nothing is written (R138, D8). -/
def store (h : Handle) (v : Word) (s : State) : State :=
  match h with
  | .reg r => { s with regs := s.regs.write r v }
  | .regPC => { s with pc := v }
  | .regSP => { s with sp := v }
  | .regO => { s with o := v }
  | .mem addr => s.memWrite addr v
  | .none => s

/-- R10: the "single read accessor" of a handle; `None` is no place. -/
def readHandle (h : Handle) (s : State) : Option Word :=
  match h with
  | .reg r => some (s.regs.read r)
  | .regPC => some s.pc
  | .regSP => some s.sp
  | .regO => some s.o
  | .mem addr => some (s.mem.read addr)
  | .none => Option.none

end Sys2Proof.Machine
end

