-- ==== Sys2Proof/Machine/Alu.lean ====
section
/-! DEFINITION. Machine/Alu.lean: the meanings of SET, ADD, SUB, MUL, DIV, MOD, SHL, SHR, AND, BOR and XOR
(spec/42_arithmetic_logic.md). `body…` is the instruction under an explicit commit flag (R32), `exec…` the same as one
transition of the flat form (R33). -/

namespace Sys2Proof.Machine

/-- R148: O is written after the store (R163, D16), and only when the rule gives it a value. -/
def writeO (newO : Option Word) (s : State) : State :=
  match newO with
  | some v => { s with o := v }
  | none => s

/-- R148 `Alu(op, a, b, commit)`: operand A is resolved first, then B (R122, D6); each once; A's handle is kept for the
store. R149: in non-commit mode nothing is stored. -/
def alu (f : Word → Word → AluOut) (base : Nat) (a b : Operand) (commit : Bool) (s : State) : State :=
  let ra := resolve commit a s
  let rb := resolve commit b ra.state
  let charged := rb.state.charge base
  let out := f ra.value rb.value
  if commit then writeO out.newO (store ra.handle out.res charged) else charged

/-- R33: an arithmetic or logic slot under `SKIP`, which it clears. -/
def aluSlot (body : Bool → State → State) (s : State) : Host.Outcome State Fault Refusal :=
  .next ((body s.commit s).endSlot false)

/-- R150 -/
def bodySet (a b : Operand) : Bool → State → State := alu fSet baseMove a b
/-- R151 -/
def bodyAdd (a b : Operand) : Bool → State → State := alu fAdd baseArith a b
/-- R152 -/
def bodySub (a b : Operand) : Bool → State → State := alu fSub baseArith a b
/-- R153 -/
def bodyMul (a b : Operand) : Bool → State → State := alu fMul baseArith a b
/-- R155 -/
def bodyDiv (a b : Operand) : Bool → State → State := alu fDiv baseDivide a b
/-- R156 -/
def bodyMod (a b : Operand) : Bool → State → State := alu fMod baseDivide a b
/-- R157 -/
def bodyShl (a b : Operand) : Bool → State → State := alu fShl baseArith a b
/-- R158 -/
def bodyShr (a b : Operand) : Bool → State → State := alu fShr baseArith a b
/-- R159 -/
def bodyAnd (a b : Operand) : Bool → State → State := alu fAnd baseMove a b
/-- R160 -/
def bodyBor (a b : Operand) : Bool → State → State := alu fBor baseMove a b
/-- R161 -/
def bodyXor (a b : Operand) : Bool → State → State := alu fXor baseMove a b

/-- R150: SET a, b. -/
def execSet (a b : Operand) (s : State) : Host.Outcome State Fault Refusal := aluSlot (bodySet a b) s
/-- R151: ADD a, b. -/
def execAdd (a b : Operand) (s : State) : Host.Outcome State Fault Refusal := aluSlot (bodyAdd a b) s
/-- R152: SUB a, b. -/
def execSub (a b : Operand) (s : State) : Host.Outcome State Fault Refusal := aluSlot (bodySub a b) s
/-- R153: MUL a, b. -/
def execMul (a b : Operand) (s : State) : Host.Outcome State Fault Refusal := aluSlot (bodyMul a b) s
/-- R155: DIV a, b. -/
def execDiv (a b : Operand) (s : State) : Host.Outcome State Fault Refusal := aluSlot (bodyDiv a b) s
/-- R156: MOD a, b. -/
def execMod (a b : Operand) (s : State) : Host.Outcome State Fault Refusal := aluSlot (bodyMod a b) s
/-- R157: SHL a, b. -/
def execShl (a b : Operand) (s : State) : Host.Outcome State Fault Refusal := aluSlot (bodyShl a b) s
/-- R158: SHR a, b. -/
def execShr (a b : Operand) (s : State) : Host.Outcome State Fault Refusal := aluSlot (bodyShr a b) s
/-- R159: AND a, b. -/
def execAnd (a b : Operand) (s : State) : Host.Outcome State Fault Refusal := aluSlot (bodyAnd a b) s
/-- R160: BOR a, b. -/
def execBor (a b : Operand) (s : State) : Host.Outcome State Fault Refusal := aluSlot (bodyBor a b) s
/-- R161: XOR a, b. -/
def execXor (a b : Operand) (s : State) : Host.Outcome State Fault Refusal := aluSlot (bodyXor a b) s

end Sys2Proof.Machine
end

