-- ==== Sys2Proof/Machine/Call.lean ====
section
/-! DEFINITION. Machine/Call.lean: the meaning of JSR (spec/44_subroutine_call.md R200 to R204). Every other transfer of
control is an ordinary instruction that writes PC (R203); there is no return instruction. -/

namespace Sys2Proof.Machine

/-- R200: decrement SP, store PC at the new SP, then set PC to the operand's value. PC is already past the whole JSR
(R202, C3). -/
def pushPcAndJump (target : Word) (s : State) : State :=
  let sp' := s.sp - 1#16
  { s.memWrite sp' s.pc with sp := sp', pc := target }

/-- R200 `Jsr(b, commit)`: the operand is resolved first (D17). R201: in non-commit mode no push and no jump. -/
def bodyJsr (b : Operand) (commit : Bool) (s : State) : State :=
  let r := resolve commit b s
  let charged := r.state.charge baseCall
  if commit then pushPcAndJump r.value charged else charged

/-- R200: JSR b, as one transition of the flat form (R33). -/
def execJsr (b : Operand) (s : State) : Host.Outcome State Fault Refusal := .next ((bodyJsr b s.commit s).endSlot false)

end Sys2Proof.Machine
end

