-- ==== Sys2Proof/Machine/Conditional.lean ====
section
/-! DEFINITION. Machine/Conditional.lean: the meanings of IFE, IFN, IFG and IFB (spec/43_conditional_skip.md R180 to
R190). A false conditional does not step over the next slot: the slot is executed in non-commit mode. -/

namespace Sys2Proof.Machine

/-- What a conditional does before the next slot is looked at: whether its predicate holds, and the state after it. -/
structure CondOut where
  holds : Bool
  state : State
  deriving DecidableEq, Repr

/-- R180 `Cond(op, a, b, commit)`: resolve A, then B (R122), evaluate the predicate, charge. It writes nothing; its
operands' side effects take place as the commit flag has them (R136, R185). -/
def cond (p : Word → Word → Bool) (a b : Operand) (commit : Bool) (s : State) : CondOut :=
  let ra := resolve commit a s
  let rb := resolve commit b ra.state
  let holds := p ra.value rb.value
  ⟨holds, rb.state.charge (condCost holds)⟩

/-- R33: a conditional slot under `SKIP`. A false predicate sets `SKIP`, whichever mode the conditional itself ran in
(R181, R185); a true one clears it, which ends a chain (R185, D11). -/
def condSlot (body : Bool → State → CondOut) (s : State) : Host.Outcome State Fault Refusal :=
  let out := body s.commit s
  .next (out.state.endSlot (!out.holds))

/-- R182 -/
def bodyIfe (a b : Operand) : Bool → State → CondOut := cond pIfe a b
/-- R183 -/
def bodyIfn (a b : Operand) : Bool → State → CondOut := cond pIfn a b
/-- R184 -/
def bodyIfg (a b : Operand) : Bool → State → CondOut := cond pIfg a b
/-- R186 -/
def bodyIfb (a b : Operand) : Bool → State → CondOut := cond pIfb a b

/-- R182: IFE a, b. -/
def execIfe (a b : Operand) (s : State) : Host.Outcome State Fault Refusal := condSlot (bodyIfe a b) s
/-- R183: IFN a, b. -/
def execIfn (a b : Operand) (s : State) : Host.Outcome State Fault Refusal := condSlot (bodyIfn a b) s
/-- R184: IFG a, b. -/
def execIfg (a b : Operand) (s : State) : Host.Outcome State Fault Refusal := condSlot (bodyIfg a b) s
/-- R186: IFB a, b. -/
def execIfb (a b : Operand) (s : State) : Host.Outcome State Fault Refusal := condSlot (bodyIfb a b) s

end Sys2Proof.Machine
end

