-- ==== Sys2Proof/Machine/Step.lean ====
section
/-! DEFINITION. Machine/Step.lean: one transition of the machine in the flat form of spec/10_state.md R33: one slot, in
commit mode or, when `SKIP` = 1, in non-commit mode. A chain of R100's `Step()` is a run of such transitions up to
`SKIP` = 0 (Machine/Chain.lean holds the recursive form; the statements say that the two agree). -/

namespace Sys2Proof.Machine

/-- R100, R33: in RUNNING, fetch the word at PC (R101), decode it (R82), and execute it, or take DecodeError (R210). In
INIT and HALTED the core does nothing (R30, R221; log entry 9). -/
def step (s : State) : Host.Outcome State Fault Refusal :=
  match s.runState with
  | .running =>
    match decode s.fetched with
    | .ok i => exec i s.advance
    | .error _ => .next s.advance.decodeError
  | .init => .next s.idle
  | .halted => .next s.idle

/-- An instruction of the opcode table, placed where `step` fetches next: its words, up to the longest slot's three,
at PC, PC + 1 and PC + 2, and the core started (`STATE` RUNNING). It stands for the host's load and `run` (R243; log
entry 17). -/
def State.withFetchWord (s : State) (nbits w : Nat) : State :=
  match tableWords nbits w with
  | [w₀, w₁, w₂] =>
    { ((s.memWrite s.pc w₀).memWrite (s.pc + 1#16) w₁).memWrite (s.pc + 2#16) w₂ with runState := .running }
  | _ => s

end Sys2Proof.Machine
end

