-- ==== Sys2Proof/Machine/Chain.lean ====
section
/-! DEFINITION. Machine/Chain.lean: the recursive form of the rules, in which one `Step()` covers a whole chain
(spec/40_execute_and_dispatch.md R100 and R103, spec/43_conditional_skip.md R181 to R189). The commit flag is an
argument (R32); `SKIP` is not used. A chain may never end (R189), so the recursion runs under fuel. -/

namespace Sys2Proof.Machine

/-- How `Exec` ends (R103): `ok` or `DecodeError`, with the state it leaves. -/
inductive ExecResult where
  | ok (s : State)
  | decodeError (s : State)
  deriving DecidableEq, Repr

/-- What one slot does under a commit flag: it is complete, or it was a conditional with a false predicate and the next
slot is to be executed in non-commit mode. -/
inductive SlotResult where
  | done (s : State)
  | skipNext (s : State)
  deriving DecidableEq, Repr

/-- R180: the outcome of a conditional. -/
def condResult (out : CondOut) : SlotResult := if out.holds then .done out.state else .skipNext out.state

/-- R103: the body the decode selects, handed the commit flag. -/
def slotBody (i : Instr) (commit : Bool) (s : State) : SlotResult :=
  match i with
  | .set a b => .done (bodySet a b commit s)
  | .add a b => .done (bodyAdd a b commit s)
  | .sub a b => .done (bodySub a b commit s)
  | .mul a b => .done (bodyMul a b commit s)
  | .div a b => .done (bodyDiv a b commit s)
  | .mod a b => .done (bodyMod a b commit s)
  | .shl a b => .done (bodyShl a b commit s)
  | .shr a b => .done (bodyShr a b commit s)
  | .and a b => .done (bodyAnd a b commit s)
  | .bor a b => .done (bodyBor a b commit s)
  | .xor a b => .done (bodyXor a b commit s)
  | .ife a b => condResult (bodyIfe a b commit s)
  | .ifn a b => condResult (bodyIfn a b commit s)
  | .ifg a b => condResult (bodyIfg a b commit s)
  | .ifb a b => condResult (bodyIfb a b commit s)
  | .jsr b => .done (bodyJsr b commit s)

/-- R103 `Exec(w, commit)` with R181 `SkipNext()` inside it. The fuel is the number of slots it may execute; none when
it runs out. -/
def execRec : Nat → Word → Bool → State → Option ExecResult
  | 0, _, _, _ => none
  | fuel + 1, w, commit, s =>
    match decode w with
    | .error _ => some (.decodeError s)
    | .ok i =>
      match slotBody i commit s with
      | .done t => some (.ok t)
      | .skipNext t => execRec fuel t.fetched false t.advance

/-- R100 `Step()`, the whole chain: `Fetch`, `Exec` in commit mode, and HALTED on DecodeError. Its precondition is
`STATE` = RUNNING. -/
def stepRec (fuel : Nat) (s : State) : Option State :=
  match execRec fuel s.fetched true s.advance with
  | some (.ok t) => some t
  | some (.decodeError t) => some t.decodeError
  | none => none

end Sys2Proof.Machine
end

