-- ==== Sys2Proof/Machine/HostEvents.lean ====
section
/-! DEFINITION. Machine/HostEvents.lean: what the host can do to the machine between steps, each with the success or
failure it reports (spec/00_scope.md R6, spec/20_memory.md R62 and R63, spec/40_execute_and_dispatch.md R102 and R108,
spec/60_exceptions.md R211 to R214 and R225, spec/70_reset_and_hazards.md R240). They are moves of the host, not of the
core: `step` takes none of them (log entry 16). -/

namespace Sys2Proof.Machine

/-- R225: the state after an event, and whether it reported success. -/
structure Reply where
  state : State
  success : Bool
  deriving DecidableEq, Repr

/-- R211: "An ignored event changes no state at all" and reports failure. -/
def ignored (s : State) : Reply := ⟨s, false⟩

/-- R240: `reset` is accepted in every state and clears everything; it reports failure from INIT (D19, C6). It is taken
mid-chain too: it also ends a step that does not terminate (R189), and from a chain that would end it leaves what it
would leave after it. -/
def hostReset (s : State) : Reply := ⟨State.reset, decide (s.runState ≠ .init)⟩

/-- R108: `run` takes INIT to RUNNING and is ignored in RUNNING and in HALTED (C7). -/
def hostRun (s : State) : Reply :=
  match s.runState with
  | .init => ⟨{ s with runState := .running }, true⟩
  | .running | .halted => ignored s

/-- R213: `halt` takes RUNNING to HALTED, between steps only: in the flat form only when `SKIP` = 0 (D20). -/
def hostHalt (s : State) : Reply :=
  match s.runState with
  | .running => if s.skip then ignored s else ⟨{ s with runState := .halted }, true⟩
  | .init | .halted => ignored s

/-- R102 `exec(w)`: `Exec(w, true)` without the fetch of the instruction word, in RUNNING only and, in the flat form,
only when `SKIP` = 0 (R33). A DecodeError, be it of a later slot of the chain, is a failure that leaves `STATE`
RUNNING. None: the chain never ends (R189), and only `reset` ends it. -/
def hostExec (w : Word) (s : State) : Option Reply :=
  match s.runState with
  | .running =>
    if s.skip then some (ignored s)
    else match execRec Config.chainFuel w true s with
      | some (.ok t) => some ⟨t, true⟩
      | some (.decodeError t) => some ⟨t, false⟩
      | none => none
  | .init | .halted => some (ignored s)

/-- R62: word `k` goes to the address `k` further on, in order. -/
def loadWords : Nat → List Word → Memory → Memory
  | _, [], m => m
  | k, w :: ws, m => loadWords (k + 1) ws (m.write (BitVec.ofNat 16 k) w)

/-- R62, R63: the loader fills memory from address 0 while `STATE` is INIT; a program of more than 65536 words is
refused and nothing is loaded (D24). -/
def hostLoad (ws : List Word) (s : State) : Reply :=
  match s.runState with
  | .init => if ws.length ≤ Config.memWords then ⟨{ s with mem := loadWords 0 ws s.mem }, true⟩ else ignored s
  | .running | .halted => ignored s

/-- R56, R62: a program file. "A file with odd length or zero length is a fatal load error" (spec/91_not_in_source.md
N14): nothing is loaded. -/
def hostLoadFile (bs : List Byte) (s : State) : Reply :=
  match wordsOfBytes bs with
  | some (w :: ws) => hostLoad (w :: ws) s
  | some [] | none => ignored s

/-- R63: the host writes a register or a memory cell, in INIT only (D22). -/
def hostWrite (h : Handle) (v : Word) (s : State) : Reply :=
  match s.runState with
  | .init => if h = .none then ignored s else ⟨store h v s, true⟩
  | .running | .halted => ignored s

/-- R6: the events that change the machine. Inspection (R222) changes nothing and is reading `State`: `readHandle`, and
the fields `runState` and `cycles`. -/
inductive HostEvent where
  | reset
  | run
  | halt
  /-- R214: `reset` and `halt` arriving together. -/
  | haltWithReset
  | exec (w : Word)
  | load (ws : List Word)
  | write (h : Handle) (v : Word)
  deriving DecidableEq, Repr

/-- The machine's answer to an event; none only for an `exec(w)` that never ends. R214: when `reset` and `halt` arrive
together, `reset` wins (D20); the report is that of `reset` (log entry 20). -/
def hostEvent (e : HostEvent) (s : State) : Option Reply :=
  match e with
  | .reset => some (hostReset s)
  | .run => some (hostRun s)
  | .halt => some (hostHalt s)
  | .haltWithReset => some (hostReset s)
  | .exec w => hostExec w s
  | .load ws => some (hostLoad ws s)
  | .write h v => some (hostWrite h v s)

end Sys2Proof.Machine
end

