-- ==== Sys2Proof/Safety.lean ====
section
/-! DEFINITION. Safety.lean: the invariant of the machine and the terms in which the statements say what an
instruction does and what it leaves alone. Each predicate below fixes every field of the next state, so a statement
that uses one is a result and a frame at once. -/

namespace Sys2Proof.Safety

open Sys2Proof.Machine

/-- What every step and every host event keeps: memory is in its canonical form, and `SKIP` is set only while the core
is RUNNING (R33: a chain is part of a step; a step runs in RUNNING only, R30). -/
structure Inv (s : State) : Prop where
  memWf : s.mem.wf = true
  skipOnlyRunning : s.runState ≠ .running → s.skip = false

/-- R80: the words that are unrecognized opcodes, by the spec's own masks. -/
def Unrecognized (w : Word) : Prop := w &&& 0x000F#16 = 0#16 ∧ w &&& 0x03F0#16 ≠ 0x0010#16

/-- R126, R128, R136: SP after an operand form has been resolved. Only POP and PUSH move it, in commit mode. -/
def spAfter (commit : Bool) (x : Operand) (sp : Word) : Word :=
  match x with
  | .pop => if commit then sp + 1#16 else sp
  | .push => if commit then sp - 1#16 else sp
  | .reg _ | .regInd _ | .regOff _ | .peek | .sp | .pc | .o | .nextInd | .nextLit | .lit _ => sp

/-- R24, R75: PC past the trailing words of some operands. -/
def pcPast (pc : Word) (words : Nat) : Word := pc + BitVec.ofNat 16 words

/-- Operand A's value (R121), as the flag has it. -/
def valueA (commit : Bool) (a : Operand) (s : State) : Word := (resolve commit a s).value

/-- The place operand A resolves to (R121). -/
def placeA (commit : Bool) (a : Operand) (s : State) : Handle := (resolve commit a s).handle

/-- Operand B's value, B being resolved after A (R122). -/
def valueB (commit : Bool) (a b : Operand) (s : State) : Word := (resolve commit b (resolve commit a s).state).value

/-- The whole effect of an arithmetic or logic instruction in commit mode (R148): the result `res` goes to operand A's
place and nowhere else, O takes `newO` after that if the rule gives one (R163), SP moves as POP and PUSH operands have
it, PC passes the trailing words, and everything else is as before. A result stored to SP or PC overrides those moves
(R164), and one for a read-only operand is discarded (R138). -/
structure AluEffect (a b : Operand) (res : Word) (newO : Option Word) (base : Nat) (s t : State) : Prop where
  regs : ∀ r, t.regs.read r = if placeA true a s = .reg r then res else s.regs.read r
  mem : ∀ addr, t.mem.read addr = if placeA true a s = .mem addr then res else s.mem.read addr
  sp : t.sp = if placeA true a s = .regSP then res else spAfter true b (spAfter true a s.sp)
  pc : t.pc = if placeA true a s = .regPC then res else pcPast s.pc (a.owns + b.owns)
  o : t.o = newO.getD (if placeA true a s = .regO then res else s.o)
  runState : t.runState = s.runState
  cycles : t.cycles = s.cycles + (base + modeCost a + modeCost b)
  skip : t.skip = false

/-- The whole effect of a conditional, in either mode (R180, R185): it writes nothing. -/
structure CondEffect (a b : Operand) (holds : Prop) (s t : State) : Prop where
  regs : t.regs = s.regs
  mem : t.mem = s.mem
  o : t.o = s.o
  runState : t.runState = s.runState
  sp : t.sp = spAfter s.commit b (spAfter s.commit a s.sp)
  pc : t.pc = pcPast s.pc (a.owns + b.owns)
  whenTrue : holds → t.skip = false ∧ t.cycles = s.cycles + (2 + modeCost a + modeCost b)
  whenFalse : ¬holds → t.skip = true ∧ t.cycles = s.cycles + (3 + modeCost a + modeCost b)

/-- The whole effect of a slot that only passes by (R149, R187, R201): PC past its words, the cycles, nothing else. -/
structure PassedBy (words cost : Nat) (s t : State) : Prop where
  regs : t.regs = s.regs
  mem : t.mem = s.mem
  sp : t.sp = s.sp
  o : t.o = s.o
  runState : t.runState = s.runState
  pc : t.pc = pcPast s.pc words
  cycles : t.cycles = s.cycles + cost

/-- The operand an instruction stores its result to, if it stores one (R72, R180, R200). -/
def destination : Instr → Option Operand
  | .set a _ | .add a _ | .sub a _ | .mul a _ | .div a _ | .mod a _ | .shl a _ | .shr a _
  | .and a _ | .bor a _ | .xor a _ => some a
  | .ife _ _ | .ifn _ _ | .ifg _ _ | .ifb _ _ | .jsr _ => none

/-- R28: the instructions whose rule gives O a value (MOD only when its divisor is zero). -/
def updatesO : Instr → Bool
  | .add _ _ | .sub _ _ | .mul _ _ | .div _ _ | .mod _ _ | .shl _ _ | .shr _ _ => true
  | .set _ _ | .and _ _ | .bor _ _ | .xor _ _ | .ife _ _ | .ifn _ _ | .ifg _ _ | .ifb _ _ | .jsr _ => false

/-- R150 to R161: the word an arithmetic or logic instruction stores through operand A's place, from its operands'
values; none for the conditionals and JSR. A zero divisor gives 0 (R155, R156), and so does a shift by 16 or more (D15,
log entry 11). -/
def resultOf (i : Instr) (s : State) : Option Word :=
  let of (a b : Operand) (f : Word → Word → Word) := some (f (valueA true a s) (valueB true a b s))
  match i with
  | .set a b => of a b fun _ vb => vb
  | .add a b => of a b fun va vb => va + vb
  | .sub a b => of a b fun va vb => va - vb
  | .mul a b => of a b fun va vb => va * vb
  | .div a b => of a b fun va vb => if vb = 0#16 then 0#16 else va / vb
  | .mod a b => of a b fun va vb => if vb = 0#16 then 0#16 else va % vb
  | .shl a b => of a b fun va vb => va <<< vb.toNat
  | .shr a b => of a b fun va vb => va >>> vb.toNat
  | .and a b => of a b fun va vb => va &&& vb
  | .bor a b => of a b fun va vb => va ||| vb
  | .xor a b => of a b fun va vb => va ^^^ vb
  | .ife _ _ | .ifn _ _ | .ifg _ _ | .ifb _ _ | .jsr _ => none

/-- R166 with each arithmetic or logic instruction's own base cost. -/
def aluWithBase (a b : Operand) : List (Instr × Nat) :=
  [(.set a b, 1), (.add a b, 2), (.sub a b, 2), (.mul a b, 2), (.div a b, 3), (.mod a b, 3), (.shl a b, 2),
   (.shr a b, 2), (.and a b, 1), (.bor a b, 1), (.xor a b, 1)]

end Sys2Proof.Safety
end

