-- ==== Sys2Proof/Certificates/Slice0/Obligations.lean ====
section
/-! DEFINITION. Certificates/Slice0/Obligations.lean: the statements for the provers. Each docstring names the rules of
spec/ it rests on; where a clause rests on a decision D<n> the spec marks as its own, or on a log entry of the model,
the docstring says so. -/

open Sys2Proof Sys2Proof.Machine Sys2Proof.Safety

/-! ## Encoding -/

/-- R82, R87: the decoder gives back every instruction that has an encoding, with every operand. Which numbers the
codes are (D1 to D4, log entry 2) does not matter here. -/
def Obligations.DecodeInvertsEncode : Prop :=
  ∀ i : Instr, i.wellFormed = true → decode (encode i) = .ok i

/-- R81, R87: whatever word decodes is the encoding of what it decodes to, so no bit of a word is dropped. -/
def Obligations.EncodeInvertsDecode : Prop :=
  ∀ (w : Word) (i : Instr), decode w = .ok i → i.wellFormed = true ∧ encode i = w

/-- R71: the fields of a word and its inverse; every word splits this way. -/
def Obligations.WordSplitsIntoFieldsAndJoins : Prop :=
  ∀ w : Word,
    (opField w).toNat = w.toNat % 16 ∧
    (aField w).toNat = w.toNat / 2 ^ 4 % 64 ∧
    (bField w).toNat = w.toNat / 2 ^ 10 % 64 ∧
    joinWord (bField w) (aField w) (opField w) = w ∧
    ∀ (b a : BitVec 6) (op : BitVec 4),
      joinWord b a op = BitVec.ofNat 16 (b.toNat * 2 ^ 10 + a.toNat * 2 ^ 4 + op.toNat)

/-- R80, R81: every word is either an unrecognized opcode, by the spec's masks (D2 fixes them), or the encoding of an
instruction. -/
def Obligations.EveryWordIsClassified : Prop :=
  ∀ w : Word,
    (Unrecognized w ∧ decode w = .error (.unrecognized w)) ∨
    (¬Unrecognized w ∧ ∃ i, decode w = .ok i ∧ i.wellFormed = true)

/-- R75, R87: a slot, the instruction word with its trailing words after it, is read back from any stream of words it
stands at the head of. -/
def Obligations.SlotDecodeInvertsSlotEncode : Prop :=
  ∀ (x : Slot) (rest : List Word), x.wellFormed = true → decodeSlot (x.encode ++ rest) = .ok (x, rest)

/-- R76, R77, R79: words of the spec's own listings, one or more per family, and what they decode to (D1 to D4). -/
def Obligations.ListedWordsDecode : Prop :=
  decode 0x7C01#16 = .ok (.set (.reg .A) .nextLit) ∧
  decode 0x59E2#16 = .ok (.add .nextInd (.regOff .I)) ∧
  decode 0x9008#16 = .ok (.shr (.reg .A) (.lit 4)) ∧
  decode 0x806D#16 = .ok (.ifn (.reg .I) (.lit 0)) ∧
  decode 0x7C10#16 = .ok (.jsr .nextLit) ∧
  decode 0x61C1#16 = .ok (.set .pc .pop) ∧
  decode 0x0000#16 = .error (.unrecognized 0x0000#16) ∧
  decode 0x0020#16 = .error (.unrecognized 0x0020#16)

/-- R56: the host's byte stream is big-endian, and parsing what the serializer emits gives the words back (S8). -/
def Obligations.BigEndianBytesRoundTrip : Prop :=
  (∀ x y : Byte, (wordOfBytes x y).toNat = 256 * x.toNat + y.toNat) ∧
  (∀ v : Word, ∃ hi lo : Byte, bytesOfWord v = [hi, lo] ∧ hi.toNat = v.toNat / 256 ∧ lo.toNat = v.toNat % 256) ∧
  (∀ ws : List Word, wordsOfBytes (bytesOfWords ws) = some ws)

/-! ## Memory -/

/-- R53: a write sets one cell and changes no other cell and no register; the cell reads as written until the next
write to it. -/
def Obligations.MemWriteSetsOneCell : Prop :=
  ∀ (s : State) (addr v : Word),
    (s.memWrite addr v).mem.read addr = v ∧
    (∀ other, other ≠ addr → (s.memWrite addr v).mem.read other = s.mem.read other) ∧
    s.memWrite addr v = { s with mem := (s.memWrite addr v).mem }

/-- The canonical form of memory (log entry 1): memories that read alike at every address are the same data. -/
def Obligations.CanonicalMemoriesReadingAlikeAreEqual : Prop :=
  ∀ m m' : Memory, m.wf = true → m'.wf = true → (∀ addr, m.read addr = m'.read addr) → m = m'

/-- R61, R204: a store is seen by the very next fetch, whichever instruction stores. When operand A of an arithmetic or
logic instruction is the cell at PC after it, the word fetched next is the result; when JSR jumps to the cell it pushed
to, it is the return address; and the next step runs that word. Operand order is D6, places
D7, results of long shifts D15 (in `resultOf`), JSR's order D17. -/
def Obligations.StoreIsSeenByNextFetch : Prop :=
  ∀ (i : Instr) (s t : State), s.skip = false → exec i s = .next t →
    (∀ a v, destination i = some a → resultOf i s = some v → placeA true a s = .mem t.pc → t.fetched = v) ∧
    (∀ b, i = .jsr b → spAfter true b s.sp - 1#16 = t.pc → t.fetched = pcPast s.pc b.owns) ∧
    (∀ j, s.runState = .running → decode t.fetched = .ok j → step t = exec j { t with pc := t.pc + 1#16 })

/-! ## Reset, the invariant, the run state -/

/-- R34: the value of every piece of state after reset. That reset leaves them from every state, INIT included, is
R240 with the decision D19 (log entry 15); that it does so in the middle of a chain too is log entry 16. -/
def Obligations.ResetValues : Prop :=
  (∀ r, State.reset.regs.read r = 0#16) ∧ State.reset.pc = 0#16 ∧ State.reset.sp = 0#16 ∧ State.reset.o = 0#16 ∧
  (∀ addr, State.reset.mem.read addr = 0#16) ∧ State.reset.runState = .init ∧ State.reset.cycles = 0 ∧
  State.reset.skip = false ∧ ∀ s, (hostReset s).state = State.reset

/-- The state after reset meets the invariant. -/
def Obligations.ResetMeetsInvariant : Prop := Inv State.reset

/-- Every step keeps the invariant: memory stays canonical, and SKIP is set only while RUNNING (R33; that DecodeError
clears SKIP is log entry 8). -/
def Obligations.StepKeepsInvariant : Prop :=
  ∀ s t : State, Inv s → step s = .next t → Inv t

/-- Every event of the host keeps the invariant. -/
def Obligations.HostEventsKeepInvariant : Prop :=
  ∀ (e : HostEvent) (s : State) (r : Reply), Inv s → hostEvent e s = some r → Inv r.state

/-- R100, R101, R103: when the word at PC decodes to an instruction, a step in RUNNING is `exec` of it with PC one past
the word; `exec` reads the rest of the slot itself (R104). -/
def Obligations.StepRunsTheDecodedInstruction : Prop :=
  ∀ (s : State) (i : Instr), s.runState = .running → decode (s.mem.read s.pc) = .ok i →
    step s = exec i { s with pc := s.pc + 1#16 }

/-- R80, R210: an unrecognized word halts the machine and does nothing else, in commit and in non-commit mode. PC is one
past the word (D13), a skipped one halts too (D12); that SKIP is cleared is log entry 8. -/
def Obligations.UnrecognizedWordHalts : Prop :=
  ∀ s : State, s.runState = .running → Unrecognized (s.mem.read s.pc) →
    step s = .next { s with pc := s.pc + 1#16, runState := .halted, skip := false }

/-- R224, R210: a step of the running machine always goes on to a next state, and it leaves RUNNING only by DecodeError:
nothing else is an exception. That an unrecognized word halts in a skipped slot too is R188, the decision D12 (log entry
14); that DecodeError is a next state is log entry 9. -/
def Obligations.OnlyDecodeErrorLeavesRunning : Prop :=
  ∀ s : State, s.runState = .running → ∃ t, step s = .next t ∧
    ((∃ e, decode (s.mem.read s.pc) = .error e) → t.runState = .halted) ∧
    ((∃ i, decode (s.mem.read s.pc) = .ok i) → t.runState = .running)

/-- R30, R221: INIT and HALTED are non-executing, and all state survives in both (log entry 9). -/
def Obligations.NothingMovesOutsideRunning : Prop :=
  ∀ s : State, s.runState ≠ .running → step s = .next s

/-- R253: the cycle counter advances only during RUNNING, and never decreases except to 0 at reset. -/
def Obligations.CyclesAdvanceOnlyInRunningAndNeverDecrease : Prop :=
  (∀ s t : State, step s = .next t → s.cycles ≤ t.cycles ∧ (s.runState ≠ .running → t.cycles = s.cycles)) ∧
  (∀ (e : HostEvent) (s : State) (r : Reply), hostEvent e s = some r → e ≠ .reset → e ≠ .haltWithReset →
    s.cycles ≤ r.state.cycles ∧ (s.runState ≠ .running → r.state.cycles = s.cycles)) ∧
  (∀ s : State, (hostReset s).state.cycles = 0)

/-- R31, R251: the counter is not functional. With another count the same step is taken, charging the same cycles. -/
def Obligations.CyclesAreNotFunctional : Prop :=
  ∀ (s t : State) (n : Nat), step s = .next t →
    ∃ charged, t.cycles = s.cycles + charged ∧
      step { s with cycles := n } = .next { t with cycles := n + charged }

/-! ## Whole-machine rules over all instructions -/

/-- R105, R136, R59: a skipped slot changes PC, CYCLES, STATE and SKIP only; SP does not move (D10). -/
def Obligations.SkippedSlotNeverWrites : Prop :=
  ∀ s t : State, s.skip = true → s.runState = .running → step s = .next t →
    t.regs = s.regs ∧ t.mem = s.mem ∧ t.sp = s.sp ∧ t.o = s.o

/-- R22: a general register is changed only as the destination of an arithmetic or logic instruction in commit mode,
through a register-direct operand A; never implicitly. -/
def Obligations.GeneralRegistersChangeOnlyAsDestination : Prop :=
  ∀ (i : Instr) (s t : State) (r : Reg), exec i s = .next t → t.regs.read r ≠ s.regs.read r →
    s.skip = false ∧ destination i = some (.reg r)

/-- R28: O is changed only in commit mode, by an instruction whose rule gives it a value or by one whose operand A is
O. -/
def Obligations.OverflowChangesOnlyByItsWriters : Prop :=
  ∀ (i : Instr) (s t : State), exec i s = .next t → t.o ≠ s.o →
    s.skip = false ∧ (updatesO i = true ∨ destination i = some .o)

/-- R53, R64, R137, R200: a memory cell is changed only in commit mode, as the place operand A of an arithmetic or logic
instruction resolves to, or as the stack cell JSR pushes to (after its operand is resolved, D17). -/
def Obligations.MemoryChangesOnlyWhereStored : Prop :=
  ∀ (i : Instr) (s t : State) (addr : Word), exec i s = .next t → t.mem.read addr ≠ s.mem.read addr →
    s.skip = false ∧
    ((∃ a, destination i = some a ∧ placeA true a s = .mem addr) ∨
     (∃ b, i = .jsr b ∧ addr = spAfter true b s.sp - 1#16))

/-- R33: the two forms of the rules agree. The recursive `Step` (Machine/Chain.lean), which covers a whole chain, reaches
a state with `n` slots of fuel exactly when the flat form, stepped until SKIP = 0, reaches the same state (registers,
memory, run state and cycle count) in at most `n` transitions. -/
def Obligations.FlatFormAgreesWithRecursiveForm : Prop :=
  ∀ (s t : State) (n : Nat), s.runState = .running → s.skip = false →
    (stepRec n s = some t ↔
      ∃ k, k < n ∧ Host.Core.run core (k + 1) s = .next t ∧ t.skip = false ∧
        ∀ j, j < k → ∃ u, Host.Core.run core (j + 1) s = .next u ∧ u.skip = true)

/-- R189: a chain that has not ended after one slot at every address never ends, so the fuel of the model's recursive
form loses no chain (log entry 16). -/
def Obligations.ChainFuelIsEnough : Prop :=
  ∀ (s t : State) (n : Nat), stepRec n s = some t → stepRec Config.chainFuel s = some t

/-! ## Operand resolution -/

/-- R123, R124: register-direct and register-indirect, in commit and in non-commit mode alike. That neither charges a
cycle is D18 (R139, log entry 13). -/
def Obligations.ResolveRegisterDirectAndIndirect : Prop :=
  ∀ (commit : Bool) (r : Reg) (s : State),
    resolve commit (.reg r) s = ⟨s.regs.read r, .reg r, s⟩ ∧
    resolve commit (.regInd r) s = ⟨s.mem.read (s.regs.read r), .mem (s.regs.read r), s⟩

/-- R125, R132, R133: the three forms that own a trailing word read it at PC, step PC past it and charge one cycle (D18),
in commit and in non-commit mode alike; a next-word literal is no place (D7). -/
def Obligations.ResolveTrailingWordForms : Prop :=
  ∀ (commit : Bool) (r : Reg) (s : State),
    let nw := s.mem.read s.pc
    let past : State := { s with pc := s.pc + 1#16, cycles := s.cycles + 1 }
    resolve commit (.regOff r) s = ⟨s.mem.read (nw + s.regs.read r), .mem (nw + s.regs.read r), past⟩ ∧
    resolve commit .nextInd s = ⟨s.mem.read nw, .mem nw, past⟩ ∧
    resolve commit .nextLit s = ⟨nw, .none, past⟩

/-- R126, R127, R128, R136: POP, PEEK and PUSH. SP moves in commit mode only (D10); all three are places (D7); reading
PUSH gives the cell below SP (D9). -/
def Obligations.ResolveStackForms : Prop :=
  ∀ (commit : Bool) (s : State),
    resolve commit .pop s =
      ⟨s.mem.read s.sp, .mem s.sp, { s with sp := if commit then s.sp + 1#16 else s.sp }⟩ ∧
    resolve commit .peek s = ⟨s.mem.read s.sp, .mem s.sp, s⟩ ∧
    resolve commit .push s =
      ⟨s.mem.read (s.sp - 1#16), .mem (s.sp - 1#16), { s with sp := if commit then s.sp - 1#16 else s.sp }⟩

/-- R129, R130, R131, R134: SP, PC and O as values, which are places too (D7), and the embedded literal, which is
none. -/
def Obligations.ResolveSystemRegistersAndLiterals : Prop :=
  ∀ (commit : Bool) (k : Word) (s : State),
    resolve commit .sp s = ⟨s.sp, .regSP, s⟩ ∧ resolve commit .pc s = ⟨s.pc, .regPC, s⟩ ∧
    resolve commit .o s = ⟨s.o, .regO, s⟩ ∧ resolve commit (.lit k) s = ⟨k, .none, s⟩

/-- R121, R135: the value of an operand is what its place holds in the state it is resolved in (for operand B the state
operand A's resolution leaves), and only literals have no place (D7). For PUSH this is D9 (R128, log entry 5). -/
def Obligations.ResolvedValueIsWhatThePlaceHolds : Prop :=
  ∀ (commit : Bool) (x : Operand) (s : State),
    ((resolve commit x s).handle ≠ .none →
      readHandle (resolve commit x s).handle s = some (resolve commit x s).value) ∧
    ((resolve commit x s).handle = .none ↔ x = .nextLit ∨ ∃ k, x = .lit k)

/-- R137, R138: a store through a place is read back there and at no other place; through `None` nothing is written
(D8). -/
def Obligations.StoreWritesItsPlaceOnly : Prop :=
  ∀ (h other : Handle) (v : Word) (s : State),
    (h ≠ .none → readHandle h (store h v s) = some v) ∧
    (other ≠ h → readHandle other (store h v s) = readHandle other s) ∧
    store .none v s = s

/-! ## Arithmetic and logic, in commit mode

Each says, for every operand form, that the instruction completes, and its whole effect. Operand values are taken A
first, then B (R122, D6); which forms are places is D7, a read-only destination is D8, O after the store is D16, the
operands' cycles are D18. -/

/-- R150: SET. -/
def Obligations.SetStoresOperandB : Prop :=
  ∀ (a b : Operand) (s : State), s.skip = false →
    ∃ t, exec (.set a b) s = .next t ∧ AluEffect a b (valueB true a b s) none 1 s t

/-- R151: ADD. -/
def Obligations.AddStoresSumAndCarry : Prop :=
  ∀ (a b : Operand) (s : State), s.skip = false →
    let va := valueA true a s
    let vb := valueB true a b s
    ∃ t, exec (.add a b) s = .next t ∧
      AluEffect a b (va + vb) (some (if va.toNat + vb.toNat ≥ 65536 then 1#16 else 0#16)) 2 s t

/-- R152: SUB. -/
def Obligations.SubStoresDifferenceAndBorrow : Prop :=
  ∀ (a b : Operand) (s : State), s.skip = false →
    let va := valueA true a s
    let vb := valueB true a b s
    ∃ t, exec (.sub a b) s = .next t ∧
      AluEffect a b (va - vb) (some (if vb > va then 0xFFFF#16 else 0#16)) 2 s t

/-- R153: MUL; the result and O are the two halves of the 32-bit product. -/
def Obligations.MulStoresProductHalves : Prop :=
  ∀ (a b : Operand) (s : State), s.skip = false →
    let va := valueA true a s
    let vb := valueB true a b s
    ∃ t hi lo, exec (.mul a b) s = .next t ∧ AluEffect a b lo (some hi) 2 s t ∧
      hi.toNat * 65536 + lo.toNat = va.toNat * vb.toNat

/-- R154, R155: DIV. By zero the result and O are 0. Otherwise the result is the truncated quotient, and O is
`((va << 16) div vb) mod 65536`, which is the spec's decision D14 from general knowledge (log entry 10). -/
def Obligations.DivStoresQuotientAndFraction : Prop :=
  ∀ (a b : Operand) (s : State), s.skip = false →
    let va := valueA true a s
    let vb := valueB true a b s
    ∃ t q f, exec (.div a b) s = .next t ∧ AluEffect a b q (some f) 3 s t ∧
      (vb = 0#16 → q = 0#16 ∧ f = 0#16) ∧
      (vb ≠ 0#16 → q.toNat * vb.toNat ≤ va.toNat ∧ va.toNat < (q.toNat + 1) * vb.toNat ∧
        f.toNat = va.toNat * 65536 / vb.toNat % 65536)

/-- R154, R156: MOD. By zero the result and O are 0 (C2); otherwise the result is the remainder and O is left alone. -/
def Obligations.ModStoresRemainder : Prop :=
  ∀ (a b : Operand) (s : State), s.skip = false →
    let va := valueA true a s
    let vb := valueB true a b s
    (vb = 0#16 → ∃ t, exec (.mod a b) s = .next t ∧ AluEffect a b 0#16 (some 0#16) 3 s t) ∧
    (vb ≠ 0#16 → ∃ t r, exec (.mod a b) s = .next t ∧ AluEffect a b r none 3 s t ∧
      r.toNat < vb.toNat ∧ ∃ q, q * vb.toNat + r.toNat = va.toNat)

/-- R157: SHL, by the ranges of the shift count. Counts of 16 and more are D15 (log entry 11). -/
def Obligations.ShlStoresShiftAndHighBits : Prop :=
  ∀ (a b : Operand) (s : State), s.skip = false →
    let va := valueA true a s
    let n := (valueB true a b s).toNat
    ∃ t res ov, exec (.shl a b) s = .next t ∧ AluEffect a b res (some ov) 2 s t ∧
      (n ≤ 15 → res = va <<< n ∧ ov = va >>> (16 - n)) ∧
      (16 ≤ n → n ≤ 31 → res = 0#16 ∧ ov = va <<< (n - 16)) ∧
      (32 ≤ n → res = 0#16 ∧ ov = 0#16)

/-- R158: SHR, by the ranges of the shift count. Counts of 16 and more are D15 (log entry 11). -/
def Obligations.ShrStoresShiftAndLowBits : Prop :=
  ∀ (a b : Operand) (s : State), s.skip = false →
    let va := valueA true a s
    let n := (valueB true a b s).toNat
    ∃ t res ov, exec (.shr a b) s = .next t ∧ AluEffect a b res (some ov) 2 s t ∧
      (n ≤ 15 → res = va >>> n ∧ ov = va <<< (16 - n)) ∧
      (16 ≤ n → n ≤ 31 → res = 0#16 ∧ ov = va >>> (n - 16)) ∧
      (32 ≤ n → res = 0#16 ∧ ov = 0#16)

/-- R159, R160, R161: AND, BOR and XOR, bit by bit. -/
def Obligations.LogicStoresBitwiseResult : Prop :=
  ∀ (a b : Operand) (s : State), s.skip = false →
    let va := valueA true a s
    let vb := valueB true a b s
    (∃ t res, exec (.and a b) s = .next t ∧ AluEffect a b res none 1 s t ∧
      ∀ k < 16, res.getLsbD k = (va.getLsbD k && vb.getLsbD k)) ∧
    (∃ t res, exec (.bor a b) s = .next t ∧ AluEffect a b res none 1 s t ∧
      ∀ k < 16, res.getLsbD k = (va.getLsbD k || vb.getLsbD k)) ∧
    (∃ t res, exec (.xor a b) s = .next t ∧ AluEffect a b res none 1 s t ∧
      ∀ k < 16, res.getLsbD k = (va.getLsbD k != vb.getLsbD k))

/-- R149, R166: in a skipped slot an arithmetic or logic instruction passes by: PC past its words, its cycles charged
(D18), SP unmoved (D10), and the chain ends. -/
def Obligations.SkippedArithmeticPassesBy : Prop :=
  ∀ (a b : Operand) (s : State), s.skip = true → ∀ row ∈ aluWithBase a b,
    ∃ t, exec row.1 s = .next t ∧ t.skip = false ∧
      PassedBy (a.owns + b.owns) (row.2 + modeCost a + modeCost b) s t

/-! ## Conditionals -/

/-- R180, R182, R185: IFE, in commit and in non-commit mode. A true predicate ends a chain (D11). -/
def Obligations.IfeTestsEquality : Prop :=
  ∀ (a b : Operand) (s : State), ∃ t, exec (.ife a b) s = .next t ∧
    CondEffect a b (valueA s.commit a s = valueB s.commit a b s) s t

/-- R180, R183, R185: IFN, in either mode. -/
def Obligations.IfnTestsInequality : Prop :=
  ∀ (a b : Operand) (s : State), ∃ t, exec (.ifn a b) s = .next t ∧
    CondEffect a b (valueA s.commit a s ≠ valueB s.commit a b s) s t

/-- R180, R184, R185: IFG, an unsigned comparison, in either mode. -/
def Obligations.IfgTestsUnsignedGreater : Prop :=
  ∀ (a b : Operand) (s : State), ∃ t, exec (.ifg a b) s = .next t ∧
    CondEffect a b ((valueA s.commit a s).toNat > (valueB s.commit a b s).toNat) s t

/-- R180, R186, R185: IFB, in either mode: some bit is set in both values. -/
def Obligations.IfbTestsCommonBit : Prop :=
  ∀ (a b : Operand) (s : State), ∃ t, exec (.ifb a b) s = .next t ∧
    CondEffect a b (∃ k, k < 16 ∧ (valueA s.commit a s).getLsbD k = true ∧ (valueB s.commit a b s).getLsbD k = true) s t

/-- R181, R187, S6: after a conditional with a false predicate, an instruction that is no conditional changes no register
but PC, which lands past all its words, and no memory; it completes, and the chain is over. Both slots are run by
`step`. That a skipped PUSH or POP leaves SP alone is D10. -/
def Obligations.FalseConditionalPassesOverNextSlot : Prop :=
  ∀ (s u : State) (i j : Instr), s.runState = .running → decode s.fetched = .ok i → exec i s.advance = .next u →
    u.skip = true → decode u.fetched = .ok j → (destination j ≠ none ∨ ∃ b, j = .jsr b) →
    step s = .next u ∧ ∃ t, step u = .next t ∧ t.skip = false ∧ t.pc = pcPast u.pc j.length ∧
      t.regs = u.regs ∧ t.mem = u.mem ∧ t.sp = u.sp ∧ t.o = u.o ∧ t.runState = .running

/-! ## Subroutine call and control transfer -/

/-- R200, R202: JSR in commit mode. The operand is resolved first (D17); the word pushed is PC past the whole call
(C3). -/
def Obligations.JsrPushesReturnAddressAndJumps : Prop :=
  ∀ (b : Operand) (s : State), s.skip = false →
    ∃ t, exec (.jsr b) s = .next t ∧
      t.pc = (resolve true b s).value ∧ t.sp = spAfter true b s.sp - 1#16 ∧
      t.mem.read t.sp = pcPast s.pc b.owns ∧ (∀ addr, addr ≠ t.sp → t.mem.read addr = s.mem.read addr) ∧
      t.regs = s.regs ∧ t.o = s.o ∧ t.runState = s.runState ∧ t.skip = false ∧
      t.cycles = s.cycles + (2 + modeCost b)

/-- R201: JSR in a skipped slot neither pushes nor jumps; its cycles are charged (D18). That SP is unmoved by JSR POP
and JSR PUSH too is D10 (R136, log entry 6). -/
def Obligations.SkippedJsrPassesBy : Prop :=
  ∀ (b : Operand) (s : State), s.skip = true →
    ∃ t, exec (.jsr b) s = .next t ∧ t.skip = false ∧ PassedBy b.owns (2 + modeCost b) s t

/-- R200, R203, R205: `SET PC, POP` returns from a call: PC is the address after the call, SP is as before the push, and
nothing else but the pushed cell and the cycles differs from before the call. -/
def Obligations.SetPcPopReturnsFromCall : Prop :=
  ∀ (b : Operand) (s t : State), s.skip = false → exec (.jsr b) s = .next t →
    ∃ u, exec (.set .pc .pop) t = .next u ∧ u.pc = pcPast s.pc b.owns ∧ u.sp = spAfter true b s.sp ∧
      u.regs = s.regs ∧ u.o = s.o ∧ u.mem = t.mem

/-- R141: `SET PUSH, POP` changes nothing but the cycle count: A's push comes first (D6) and B's pop reads the cell the
push made room in. Memory is assumed canonical, which every step keeps (StepKeepsInvariant). -/
def Obligations.SetPushPopChangesNothing : Prop :=
  ∀ s : State, s.skip = false → s.mem.wf = true →
    exec (.set .push .pop) s = .next { s with cycles := s.cycles + 1 }

/-- R141, R203: the word 0x85C3, `SUB PC, 1`, is a loop on itself at every address, the wrap of PC included: a step
leaves PC where it was and changes only O and the cycle count beside. -/
def Obligations.SubPcOneLoopsOnItself : Prop :=
  ∀ s : State, s.runState = .running → s.skip = false → s.mem.read s.pc = 0x85C3#16 →
    ∃ t, step s = .next t ∧ t.pc = s.pc ∧ t.regs = s.regs ∧ t.mem = s.mem ∧ t.sp = s.sp ∧
      t.runState = .running ∧ t.skip = false ∧ t.cycles = s.cycles + 2

/-! ## Host events -/

/-- R108, R211, R213, R214, R240: the life cycle. `run` from INIT only; `halt` from RUNNING only and between steps
(D20); `reset` from everywhere, clearing everything, its report being failure from INIT (D19), and in the middle of a
chain too (log entry 16); an ignored event changes nothing. When `reset` and `halt` arrive together `reset` wins (D20);
that the report is then that of `reset` is log entry 20. -/
def Obligations.LifeCycleEvents : Prop :=
  ∀ s : State,
    (s.runState = .init → hostRun s = ⟨{ s with runState := .running }, true⟩) ∧
    (s.runState ≠ .init → hostRun s = ⟨s, false⟩) ∧
    (s.runState = .running → s.skip = false → hostHalt s = ⟨{ s with runState := .halted }, true⟩) ∧
    (s.runState ≠ .running ∨ s.skip = true → hostHalt s = ⟨s, false⟩) ∧
    (s.runState = .init → hostReset s = ⟨State.reset, false⟩) ∧
    (s.runState ≠ .init → hostReset s = ⟨State.reset, true⟩) ∧
    hostEvent .haltWithReset s = hostEvent .reset s

/-- R102: the host's `exec(w)`. Outside RUNNING it fails with no effect, and so it does in the middle of a chain (R33, log
entry 16); an unrecognized word fails with no effect and leaves STATE RUNNING; an instruction that ends its slot takes
its effect with no fetch of its word; and a false conditional whose next slot is unrecognized fails with STATE left
RUNNING, PC past that word (D12). Every other chain is in ExecEventRunsTheWholeChain. -/
def Obligations.ExecEventRunsOneInstruction : Prop :=
  ∀ (w : Word) (s : State),
    (s.runState ≠ .running → hostExec w s = some ⟨s, false⟩) ∧
    (s.skip = true → hostExec w s = some ⟨s, false⟩) ∧
    (s.runState = .running → s.skip = false →
      (∀ e, decode w = .error e → hostExec w s = some ⟨s, false⟩) ∧
      (∀ i t, decode w = .ok i → exec i s = .next t → t.skip = false → hostExec w s = some ⟨t, true⟩) ∧
      (∀ i t e, decode w = .ok i → exec i s = .next t → t.skip = true → decode t.fetched = .error e →
        hostExec w s = some ⟨{ t with pc := t.pc + 1#16, skip := false }, false⟩))

/-- R62, R63: in INIT a program of at most 65536 words goes to memory from address 0 in file order, and nothing else
changes; a longer one is refused (D24), and outside INIT none is loaded (D22). -/
def Obligations.LoaderFillsMemoryFromZero : Prop :=
  ∀ (ws : List Word) (s : State),
    (s.runState = .init → ws.length ≤ 65536 → ∃ m, hostLoad ws s = ⟨{ s with mem := m }, true⟩ ∧
      (∀ k (h : k < ws.length), m.read (BitVec.ofNat 16 k) = ws[k]) ∧
      (∀ addr : Word, ws.length ≤ addr.toNat → m.read addr = s.mem.read addr)) ∧
    (s.runState = .init → 65536 < ws.length → hostLoad ws s = ⟨s, false⟩) ∧
    (s.runState ≠ .init → hostLoad ws s = ⟨s, false⟩)

/-- R102, R181, R185, R188, R189: `exec(w)` of a false conditional, which sets SKIP in `t`, runs its whole chain. If the
steps from `t` first clear SKIP in `u`, then `u` is the answer, with success if the core still runs in it; a chain that
met an unrecognized word, in whichever slot (D12), fails with STATE left RUNNING. If no step from `t` ever clears SKIP,
`exec(w)` does not end. How a chain ends is D11; the flat form is R33, log entries 7 and 8, the event log entry 16. -/
def Obligations.ExecEventRunsTheWholeChain : Prop :=
  ∀ (w : Word) (i : Instr) (s t : State),
    s.runState = .running → s.skip = false → decode w = .ok i → exec i s = .next t → t.skip = true →
    (∀ (k : Nat) (u : State), Host.Core.run core (k + 1) t = .next u → u.skip = false →
      (∀ j, j < k → ∃ v, Host.Core.run core (j + 1) t = .next v ∧ v.skip = true) →
      (u.runState = .running ∧ hostExec w s = some ⟨u, true⟩) ∨
      (u.runState = .halted ∧ hostExec w s = some ⟨{ u with runState := .running }, false⟩)) ∧
    ((∀ k, ∃ v, Host.Core.run core (k + 1) t = .next v ∧ v.skip = true) → hostExec w s = none)
end

