-- ==== Sys2Proof/Laws/Decode.lean ====
section
/-! SUPPORT. Laws/Decode.lean: the fields of a joined word, and operand codes against operand forms. -/

namespace Sys2Proof

theorem opField_joinWord (b a : BitVec 6) (op : BitVec 4) : opField (joinWord b a op) = op := by
  apply BitVec.eq_of_getLsbD_eq
  intro i hi
  simp only [opField, joinWord, BitVec.getLsbD_extractLsb', BitVec.getLsbD_or, BitVec.getLsbD_shiftLeft,
    BitVec.getLsbD_setWidth]
  have h10 : i < 10 := by omega
  have h16 : i < 16 := by omega
  simp [hi, h10, h16]

theorem aField_joinWord (b a : BitVec 6) (op : BitVec 4) : aField (joinWord b a op) = a := by
  apply BitVec.eq_of_getLsbD_eq
  intro i hi
  simp only [aField, joinWord, BitVec.getLsbD_extractLsb', BitVec.getLsbD_or, BitVec.getLsbD_shiftLeft,
    BitVec.getLsbD_setWidth]
  have h10 : 4 + i < 10 := by omega
  have h16 : 4 + i < 16 := by omega
  have h16' : i < 16 := by omega
  simp [hi, h10, h16, h16']

theorem bField_joinWord (b a : BitVec 6) (op : BitVec 4) : bField (joinWord b a op) = b := by
  apply BitVec.eq_of_getLsbD_eq
  intro i hi
  simp only [bField, joinWord, BitVec.getLsbD_extractLsb', BitVec.getLsbD_or, BitVec.getLsbD_shiftLeft,
    BitVec.getLsbD_setWidth]
  have ha : a.getLsbD (10 + i - 4) = false := BitVec.getLsbD_of_ge _ _ (by omega)
  have h4 : op.getLsbD (10 + i) = false := BitVec.getLsbD_of_ge _ _ (by omega)
  have h16 : 10 + i < 16 := by omega
  have h16' : i < 16 := by omega
  simp [hi, ha, h4, h16, h16']

/-- R21: index and register are one to one. -/
@[simp] theorem regOfIndex_index (r : Reg) : regOfIndex r.index = r := by cases r <;> rfl

/-- R76: a well-formed form is the form of its code. -/
theorem operandOfCode_code (x : Operand) (h : x.wellFormed = true) : operandOfCode x.code = x := by
  cases x with
  | lit k =>
    simp only [Operand.wellFormed, decide_eq_true_eq] at h
    have hk : ∀ n : Fin 32, operandOfCode (BitVec.ofNat 6 (0x20 + n.val)) = .lit (BitVec.ofNat 16 n.val) := by decide
    have := hk ⟨k.toNat, by omega⟩
    simpa [Operand.code] using this
  | reg r | regInd r | regOff r => cases r <;> decide
  | pop | peek | push | sp | pc | o | nextInd | nextLit => decide

/-- R76: every code is the code of its form, and its form is well formed. -/
theorem code_operandOfCode (c : BitVec 6) :
    (operandOfCode c).code = c ∧ (operandOfCode c).wellFormed = true := by
  revert c; decide

end Sys2Proof
end

