-- ==== Sys2Proof/Laws/Memory.lean ====
section
/-! SUPPORT. Laws/Memory.lean: what listing a cell and taking one out do to every cell, and that every memory operation
keeps the canonical form. -/

namespace Sys2Proof.Machine

theorem Memory.lookup_insertCell (m : Memory) (a b : Nat) (v : Word) :
    (m.insertCell a v).lookup b = if a = b then v else m.lookup b := by
  induction m with
  | nil => simp [Memory.insertCell, Memory.lookup]
  | cons cell m ih =>
    obtain ⟨k, w⟩ := cell
    simp only [Memory.insertCell]
    split
    · subst k; simp only [Memory.lookup]; split <;> rfl
    · split
      · simp only [Memory.lookup]
      · simp only [Memory.lookup, ih]
        split <;> split <;> first | rfl | omega

theorem Memory.lookup_filter_ne (m : Memory) (a b : Nat) :
    Memory.lookup (m.filter (fun cell => cell.1 ≠ a)) b = if a = b then 0#16 else m.lookup b := by
  induction m with
  | nil => simp [Memory.lookup]
  | cons cell m ih =>
    obtain ⟨k, w⟩ := cell
    by_cases hk : k = a
    · subst k; simp only [List.filter_cons, ne_eq, not_true_eq_false, decide_false, Bool.false_eq_true, if_false]
      simp only [ne_eq] at ih
      rw [ih]; simp only [Memory.lookup]; split <;> rfl
    · simp only [List.filter_cons, ne_eq, hk, not_false_eq_true, decide_true, if_true]
      simp only [Memory.lookup]
      simp only [ne_eq] at ih
      rw [ih]; split
      · split
        · omega
        · rfl
      · rfl

theorem Memory.wfFrom_mono {m : Memory} {lo lo' : Nat} (h : lo ≤ lo') (hm : m.wfFrom lo' = true) :
    m.wfFrom lo = true := by
  cases m with
  | nil => rfl
  | cons cell m =>
    simp only [Memory.wfFrom, Bool.and_eq_true, decide_eq_true_eq] at hm ⊢
    exact ⟨⟨⟨by omega, hm.1.1.2⟩, hm.1.2⟩, hm.2⟩

theorem Memory.wfFrom_filter {p : Nat × Word → Bool} {m : Memory} {lo : Nat} (h : m.wfFrom lo = true) :
    Memory.wfFrom lo (m.filter p) = true := by
  induction m generalizing lo with
  | nil => rfl
  | cons cell m ih =>
    obtain ⟨k, w⟩ := cell
    simp only [Memory.wfFrom, Bool.and_eq_true, decide_eq_true_eq] at h
    obtain ⟨⟨⟨hlo, hk⟩, hw⟩, hm⟩ := h
    rw [List.filter_cons]
    split
    · simp only [Memory.wfFrom, Bool.and_eq_true, decide_eq_true_eq]
      exact ⟨⟨⟨hlo, hk⟩, hw⟩, ih hm⟩
    · exact Memory.wfFrom_mono (by omega) (ih hm)

theorem Memory.wfFrom_insertCell {m : Memory} {lo a : Nat} {v : Word} (h : m.wfFrom lo = true) (hlo : lo ≤ a)
    (ha : a < Config.memWords) (hv : v ≠ 0#16) : (m.insertCell a v).wfFrom lo = true := by
  induction m generalizing lo with
  | nil => simp [Memory.insertCell, Memory.wfFrom, hlo, ha, hv]
  | cons cell m ih =>
    obtain ⟨k, w⟩ := cell
    simp only [Memory.wfFrom, Bool.and_eq_true, decide_eq_true_eq] at h
    obtain ⟨⟨⟨hk, hkm⟩, hw⟩, hm⟩ := h
    simp only [Memory.insertCell]
    split
    · subst k; simp only [Memory.wfFrom, Bool.and_eq_true, decide_eq_true_eq]; exact ⟨⟨⟨hlo, ha⟩, hv⟩, hm⟩
    · split
      · simp only [Memory.wfFrom, Bool.and_eq_true, decide_eq_true_eq]
        exact ⟨⟨⟨hlo, ha⟩, hv⟩, ⟨⟨by omega, hkm⟩, hw⟩, hm⟩
      · simp only [Memory.wfFrom, Bool.and_eq_true, decide_eq_true_eq]
        exact ⟨⟨⟨hk, hkm⟩, hw⟩, ih hm (by omega)⟩

/-- Every memory operation keeps the canonical form: `Memory.write` is the only one that changes memory. -/
theorem Memory.wf_write {m : Memory} (h : m.wf = true) (a v : Word) : (m.write a v).wf = true := by
  unfold Memory.write
  split
  · exact Memory.wfFrom_filter h
  · exact Memory.wfFrom_insertCell h (Nat.zero_le _) (by simp only [Config.memWords]; omega) ‹_›

/-- R34: reset memory has the canonical form. -/
theorem Memory.wf_reset : State.reset.mem.wf = true := rfl

/-- R34: every cell is 0x0000 after reset. -/
@[simp] theorem Memory.read_nil (a : Word) : Memory.read [] a = 0#16 := rfl

end Sys2Proof.Machine
end

