-- ==== Sys2Proof/Laws/State.lean ====
section
/-! SUPPORT. Laws/State.lean: one lemma per field for each state update of Machine/Ops.lean, so that no later proof
unfolds a record update; and reading a general register after a write. -/

namespace Sys2Proof.Machine

@[simp] theorem State.memWrite_regs (s : State) (a v : Word) : (s.memWrite a v).regs = s.regs := rfl
@[simp] theorem State.memWrite_pc (s : State) (a v : Word) : (s.memWrite a v).pc = s.pc := rfl
@[simp] theorem State.memWrite_sp (s : State) (a v : Word) : (s.memWrite a v).sp = s.sp := rfl
@[simp] theorem State.memWrite_o (s : State) (a v : Word) : (s.memWrite a v).o = s.o := rfl
@[simp] theorem State.memWrite_mem (s : State) (a v : Word) : (s.memWrite a v).mem = s.mem.write a v := rfl
@[simp] theorem State.memWrite_runState (s : State) (a v : Word) : (s.memWrite a v).runState = s.runState := rfl
@[simp] theorem State.memWrite_cycles (s : State) (a v : Word) : (s.memWrite a v).cycles = s.cycles := rfl
@[simp] theorem State.memWrite_skip (s : State) (a v : Word) : (s.memWrite a v).skip = s.skip := rfl

@[simp] theorem State.charge_regs (s : State) (n : Nat) : (s.charge n).regs = s.regs := rfl
@[simp] theorem State.charge_pc (s : State) (n : Nat) : (s.charge n).pc = s.pc := rfl
@[simp] theorem State.charge_sp (s : State) (n : Nat) : (s.charge n).sp = s.sp := rfl
@[simp] theorem State.charge_o (s : State) (n : Nat) : (s.charge n).o = s.o := rfl
@[simp] theorem State.charge_mem (s : State) (n : Nat) : (s.charge n).mem = s.mem := rfl
@[simp] theorem State.charge_runState (s : State) (n : Nat) : (s.charge n).runState = s.runState := rfl
@[simp] theorem State.charge_cycles (s : State) (n : Nat) : (s.charge n).cycles = s.cycles + n := rfl
@[simp] theorem State.charge_skip (s : State) (n : Nat) : (s.charge n).skip = s.skip := rfl
@[simp] theorem State.charge_fetched (s : State) (n : Nat) : (s.charge n).fetched = s.fetched := rfl

@[simp] theorem State.advance_regs (s : State) : s.advance.regs = s.regs := rfl
@[simp] theorem State.advance_pc (s : State) : s.advance.pc = s.pc + 1#16 := rfl
@[simp] theorem State.advance_sp (s : State) : s.advance.sp = s.sp := rfl
@[simp] theorem State.advance_o (s : State) : s.advance.o = s.o := rfl
@[simp] theorem State.advance_mem (s : State) : s.advance.mem = s.mem := rfl
@[simp] theorem State.advance_runState (s : State) : s.advance.runState = s.runState := rfl
@[simp] theorem State.advance_cycles (s : State) : s.advance.cycles = s.cycles := rfl
@[simp] theorem State.advance_skip (s : State) : s.advance.skip = s.skip := rfl

@[simp] theorem State.endSlot_regs (s : State) (k : Bool) : (s.endSlot k).regs = s.regs := rfl
@[simp] theorem State.endSlot_pc (s : State) (k : Bool) : (s.endSlot k).pc = s.pc := rfl
@[simp] theorem State.endSlot_sp (s : State) (k : Bool) : (s.endSlot k).sp = s.sp := rfl
@[simp] theorem State.endSlot_o (s : State) (k : Bool) : (s.endSlot k).o = s.o := rfl
@[simp] theorem State.endSlot_mem (s : State) (k : Bool) : (s.endSlot k).mem = s.mem := rfl
@[simp] theorem State.endSlot_runState (s : State) (k : Bool) : (s.endSlot k).runState = s.runState := rfl
@[simp] theorem State.endSlot_cycles (s : State) (k : Bool) : (s.endSlot k).cycles = s.cycles := rfl
@[simp] theorem State.endSlot_skip (s : State) (k : Bool) : (s.endSlot k).skip = k := rfl

@[simp] theorem State.decodeError_regs (s : State) : s.decodeError.regs = s.regs := rfl
@[simp] theorem State.decodeError_pc (s : State) : s.decodeError.pc = s.pc := rfl
@[simp] theorem State.decodeError_sp (s : State) : s.decodeError.sp = s.sp := rfl
@[simp] theorem State.decodeError_o (s : State) : s.decodeError.o = s.o := rfl
@[simp] theorem State.decodeError_mem (s : State) : s.decodeError.mem = s.mem := rfl
@[simp] theorem State.decodeError_runState (s : State) : s.decodeError.runState = .halted := rfl
@[simp] theorem State.decodeError_cycles (s : State) : s.decodeError.cycles = s.cycles := rfl
@[simp] theorem State.decodeError_skip (s : State) : s.decodeError.skip = false := rfl

@[simp] theorem State.commit_of_skip_false {s : State} (h : s.skip = false) : s.commit = true := by
  simp [State.commit, h]

@[simp] theorem State.commit_of_skip_true {s : State} (h : s.skip = true) : s.commit = false := by
  simp [State.commit, h]

/-- R20: the general registers are eight separate cells. -/
theorem Regs.read_write (rs : Regs) (r q : Reg) (v : Word) :
    (rs.write r v).read q = if r = q then v else rs.read q := by
  cases r <;> cases q <;> rfl

end Sys2Proof.Machine
end

