-- ==== Sys2Proof/Laws/Operands.lean ====
section
/-! SUPPORT. Laws/Operands.lean: everything resolving an operand and storing through a handle can do to the state. -/

namespace Sys2Proof.Machine

open Sys2Proof.Safety

/-- R121, R136, R140: resolution moves PC past the trailing word, moves SP for POP and PUSH, charges the form's cost,
and does nothing else. Stated here and proved form by form. -/
theorem resolve_state (commit : Bool) (x : Operand) (s : State) :
    (resolve commit x s).state =
      { s with pc := pcPast s.pc x.owns, sp := spAfter commit x s.sp, cycles := s.cycles + modeCost x } := by
  cases x <;> cases commit <;>
    simp [resolve, pcPast, Operand.owns, spAfter, spMoves, nonCommitSpEffects, State.charge, State.advance, modeCost]

/-- What resolution reads does not depend on the cycle counter, the run state or `SKIP`. -/
theorem resolve_congr (commit : Bool) (x : Operand) (s : State) (rs : RunState) (n : Nat) (k : Bool) :
    (resolve commit x { s with runState := rs, cycles := n, skip := k }).value = (resolve commit x s).value ∧
    (resolve commit x { s with runState := rs, cycles := n, skip := k }).handle = (resolve commit x s).handle := by
  cases x <;> exact ⟨rfl, rfl⟩

/-- R137: storing leaves the run state, the cycle counter and `SKIP` alone, whatever the handle. -/
@[simp] theorem store_runState (h : Handle) (v : Word) (s : State) : (store h v s).runState = s.runState := by
  cases h <;> rfl
@[simp] theorem store_cycles (h : Handle) (v : Word) (s : State) : (store h v s).cycles = s.cycles := by
  cases h <;> rfl
@[simp] theorem store_skip (h : Handle) (v : Word) (s : State) : (store h v s).skip = s.skip := by
  cases h <;> rfl

/-- R137: which handle writes which register. -/
theorem store_regs (h : Handle) (v : Word) (s : State) (r : Reg) :
    (store h v s).regs.read r = if h = .reg r then v else s.regs.read r := by
  cases h <;> simp [store, Regs.read_write]
theorem store_pc (h : Handle) (v : Word) (s : State) : (store h v s).pc = if h = .regPC then v else s.pc := by
  cases h <;> simp [store]
theorem store_sp (h : Handle) (v : Word) (s : State) : (store h v s).sp = if h = .regSP then v else s.sp := by
  cases h <;> simp [store]
theorem store_o (h : Handle) (v : Word) (s : State) : (store h v s).o = if h = .regO then v else s.o := by
  cases h <;> simp [store]

/-- R137: the only change of memory a store can make. -/
theorem store_mem (h : Handle) (v : Word) (s : State) :
    (store h v s).mem = match h with
      | .mem addr => s.mem.write addr v
      | .reg _ | .regPC | .regSP | .regO | .none => s.mem := by
  cases h <;> rfl

end Sys2Proof.Machine
end

