-- ==== Sys2Proof/Laws/Exec.lean ====
section
/-! SUPPORT. Laws/Exec.lean: what the shared bodies do, and exec and step by cases. -/

namespace Sys2Proof.Machine

open Sys2Proof.Safety

/-- R148 in commit mode, with both resolutions written out. -/
theorem alu_commit (f : Word → Word → AluOut) (base : Nat) (a b : Operand) (s : State) :
    alu f base a b true s =
      writeO (f (valueA true a s) (valueB true a b s)).newO
        (store (placeA true a s) (f (valueA true a s) (valueB true a b s)).res
          { s with
            pc := pcPast (pcPast s.pc a.owns) b.owns
            sp := spAfter true b (spAfter true a s.sp)
            cycles := s.cycles + modeCost a + modeCost b + base }) := by
  simp only [alu, valueA, valueB, placeA, resolve_state, State.charge, if_true]

/-- R149: in non-commit mode. -/
theorem alu_noncommit (f : Word → Word → AluOut) (base : Nat) (a b : Operand) (s : State) :
    alu f base a b false s =
      { s with pc := pcPast (pcPast s.pc a.owns) b.owns, cycles := s.cycles + modeCost a + modeCost b + base } := by
  have hsp : ∀ (x : Operand) (v : Word), spAfter false x v = v := by intro x v; cases x <;> rfl
  simp [alu, resolve_state, State.charge, hsp]

/-- R180: a conditional writes nothing. -/
theorem cond_eq (p : Word → Word → Bool) (a b : Operand) (commit : Bool) (s : State) :
    cond p a b commit s =
      ⟨p (valueA commit a s) (valueB commit a b s),
        { s with
          pc := pcPast (pcPast s.pc a.owns) b.owns
          sp := spAfter commit b (spAfter commit a s.sp)
          cycles := s.cycles + modeCost a + modeCost b + condCost (p (valueA commit a s) (valueB commit a b s)) }⟩ := by
  simp only [cond, valueA, valueB, resolve_state, State.charge]

/-- Moving PC past words adds up. -/
theorem pcPast_pcPast (pc : Word) (m n : Nat) : pcPast (pcPast pc m) n = pcPast pc (m + n) := by
  simp [pcPast, BitVec.ofNat_add, BitVec.add_assoc]

/-- The one lemma about `exec`: it is the slot's body under the commit flag, with `SKIP` set as the slot ends (R33). -/
theorem exec_eq (i : Instr) (s : State) :
    exec i s = .next (match slotBody i s.commit s with
      | .done t => t.endSlot false
      | .skipNext t => t.endSlot true) := by
  have hc : ∀ out : CondOut, (Host.Outcome.next (out.state.endSlot (!out.holds)) : Host.Outcome State Fault Refusal) =
      .next (match condResult out with
        | .done t => t.endSlot false
        | .skipNext t => t.endSlot true) := by
    intro out; cases h : out.holds <;> simp [condResult, h]
  cases i <;> first | rfl | exact hc _

/-- What a next state of `exec` can be: a completed slot, or a conditional that lets the next slot be skipped. -/
theorem exec_next {i : Instr} {s t : State} (h : exec i s = .next t) :
    ∃ u, (slotBody i s.commit s = .done u ∧ t = u.endSlot false) ∨
      (slotBody i s.commit s = .skipNext u ∧ t = u.endSlot true) := by
  rw [exec_eq] at h
  cases hb : slotBody i s.commit s with
  | done u => rw [hb] at h; injection h with h; exact ⟨u, .inl ⟨rfl, h.symm⟩⟩
  | skipNext u => rw [hb] at h; injection h with h; exact ⟨u, .inr ⟨rfl, h.symm⟩⟩

/-- A conditional's outcome carries its state either way. -/
theorem condResult_state {out : CondOut} {t : State} (h : condResult out = .done t ∨ condResult out = .skipNext t) :
    t = out.state := by
  unfold condResult at h
  split at h <;> simpa [eq_comm] using h

/-- R137: a store keeps the canonical form of memory. -/
theorem store_wf {h : Handle} {v : Word} {s : State} (hw : s.mem.wf = true) : (store h v s).mem.wf = true := by
  rw [store_mem]
  cases h <;> simp [hw, Memory.wf_write]

theorem alu_wf {f : Word → Word → AluOut} {base : Nat} {a b : Operand} {c : Bool} {s : State}
    (hw : s.mem.wf = true) : (alu f base a b c s).mem.wf = true := by
  cases c
  · rw [alu_noncommit]; exact hw
  · rw [alu_commit]; cases (f _ _).newO <;> exact store_wf hw

theorem alu_runState_skip (f : Word → Word → AluOut) (base : Nat) (a b : Operand) (c : Bool) (s : State) :
    (alu f base a b c s).runState = s.runState ∧ (alu f base a b c s).skip = s.skip := by
  cases c
  · rw [alu_noncommit]; exact ⟨rfl, rfl⟩
  · rw [alu_commit]; cases (f _ _).newO <;> simp [writeO]

/-- Every slot keeps the canonical form of memory, and the run state; its body does not touch `SKIP`. -/
theorem slotBody_keeps {i : Instr} {c : Bool} {s t : State}
    (h : slotBody i c s = .done t ∨ slotBody i c s = .skipNext t) :
    (s.mem.wf = true → t.mem.wf = true) ∧ t.runState = s.runState ∧ t.skip = s.skip := by
  have hcond : ∀ p a b, (condResult (cond p a b c s) = .done t ∨ condResult (cond p a b c s) = .skipNext t) →
      (s.mem.wf = true → t.mem.wf = true) ∧ t.runState = s.runState ∧ t.skip = s.skip := by
    intro p a b h
    rw [condResult_state h, cond_eq]
    exact ⟨id, rfl, rfl⟩
  cases i
  case jsr b =>
    simp only [slotBody, bodyJsr, SlotResult.done.injEq, reduceCtorEq, or_false] at h
    subst h
    split
    · simp only [pushPcAndJump, resolve_state]; exact ⟨fun hw => Memory.wf_write hw _ _, rfl, rfl⟩
    · simp only [resolve_state]; exact ⟨id, rfl, rfl⟩
  case ife a b => exact hcond _ _ _ h
  case ifn a b => exact hcond _ _ _ h
  case ifg a b => exact hcond _ _ _ h
  case ifb a b => exact hcond _ _ _ h
  all_goals
    simp only [slotBody, SlotResult.done.injEq, reduceCtorEq, or_false] at h
    subst h
    exact ⟨alu_wf, alu_runState_skip _ _ _ _ _ _⟩

/-- `step` in RUNNING, as one equation. -/
theorem step_running {s : State} (h : s.runState = .running) :
    step s = match decode s.fetched with
      | .ok i => exec i s.advance
      | .error _ => .next s.advance.decodeError := by
  simp only [step, h] <;> rfl

/-- One transition of a run of the core. -/
theorem run_succ_of_step {k : Nat} {s t : State} (h : step s = .next t) :
    Host.Core.run core (k + 1) s = Host.Core.run core k t := by
  have h' : core.step s = .next t := h
  simp only [Host.Core.run, h']

/-- The one lemma about `step`: what it can answer, and from where. -/
theorem step_cases {s t : State} (h : step s = .next t) :
    (s.runState ≠ .running ∧ t = s) ∨
    (s.runState = .running ∧ ∃ e, decode s.fetched = .error e ∧ t = s.advance.decodeError) ∨
    (s.runState = .running ∧ ∃ i, decode s.fetched = .ok i ∧ exec i s.advance = .next t) := by
  unfold step at h
  cases hs : s.runState <;> simp only [hs] at h
  · exact .inl ⟨by simp, by simpa [State.idle] using h.symm⟩
  · cases hd : decode s.fetched with
    | ok i => simp only [hd] at h; exact .inr (.inr ⟨rfl, i, rfl, h⟩)
    | error e => simp only [hd] at h; exact .inr (.inl ⟨rfl, e, rfl, by simpa using h.symm⟩)
  · exact .inl ⟨by simp, by simpa [State.idle] using h.symm⟩

end Sys2Proof.Machine
end

