-- ==== Sys2Proof/Laws/HostEvents.lean ====
section
/-! SUPPORT. Laws/HostEvents.lean: the loader and the recursive form keep the canonical form of memory. -/

namespace Sys2Proof.Machine

/-- R62: loading keeps the canonical form of memory. -/
theorem loadWords_wf {ws : List Word} {k : Nat} {m : Memory} (h : m.wf = true) : (loadWords k ws m).wf = true := by
  induction ws generalizing k m with
  | nil => exact h
  | cons w ws ih => exact ih (Memory.wf_write h _ _)

/-- R103: how `Exec` can end, whatever its chain: canonical memory stays canonical, the run state and `SKIP` are as
they were (a DecodeError halts in `Step`, not in `Exec`). -/
theorem execRec_keeps {n : Nat} {w : Word} {c : Bool} {s t : State}
    (h : execRec n w c s = some (.ok t) ∨ execRec n w c s = some (.decodeError t)) :
    (s.mem.wf = true → t.mem.wf = true) ∧ t.runState = s.runState ∧ t.skip = s.skip := by
  induction n generalizing w c s with
  | zero => simp [execRec] at h
  | succ n ih =>
    simp only [execRec] at h
    split at h
    · simp only [Option.some.injEq, reduceCtorEq, ExecResult.decodeError.injEq, false_or] at h
      subst h; exact ⟨id, rfl, rfl⟩
    · split at h
      · rename_i hb
        simp only [Option.some.injEq, reduceCtorEq, ExecResult.ok.injEq, or_false] at h
        subst h; exact slotBody_keeps (.inl hb)
      · rename_i u hb
        obtain ⟨h1, h2, h3⟩ := ih h
        obtain ⟨g1, g2, g3⟩ := slotBody_keeps (.inr hb)
        exact ⟨fun hw => h1 (g1 hw), h2.trans g2, h3.trans g3⟩

end Sys2Proof.Machine
end

