-- ==== Sys2Proof/Laws/PerInstr.lean ====
section
/-! SUPPORT. Laws/PerInstr.lean: the statements made instruction by instruction (LAWS.json). -/

namespace Sys2Proof.Laws.LengthBound

/-- R75: an instruction is 1, 2 or 3 words long. -/
def Statement (i : Instr) : Prop := 1 ≤ i.length ∧ i.length ≤ 3

theorem owns_le_one (x : Operand) : x.owns ≤ 1 := by cases x <;> simp [Operand.owns]

theorem of_two {i : Instr} {a b : Operand} (h : i.trailingWords = a.owns + b.owns) : Statement i := by
  have := owns_le_one a
  have := owns_le_one b
  unfold Statement Instr.length
  omega

theorem set (a b : Operand) : Statement (.set a b) := of_two rfl
theorem add (a b : Operand) : Statement (.add a b) := of_two rfl
theorem sub (a b : Operand) : Statement (.sub a b) := of_two rfl
theorem mul (a b : Operand) : Statement (.mul a b) := of_two rfl
theorem div (a b : Operand) : Statement (.div a b) := of_two rfl
theorem mod (a b : Operand) : Statement (.mod a b) := of_two rfl
theorem shl (a b : Operand) : Statement (.shl a b) := of_two rfl
theorem shr (a b : Operand) : Statement (.shr a b) := of_two rfl
theorem and (a b : Operand) : Statement (.and a b) := of_two rfl
theorem bor (a b : Operand) : Statement (.bor a b) := of_two rfl
theorem xor (a b : Operand) : Statement (.xor a b) := of_two rfl
theorem ife (a b : Operand) : Statement (.ife a b) := of_two rfl
theorem ifn (a b : Operand) : Statement (.ifn a b) := of_two rfl
theorem ifg (a b : Operand) : Statement (.ifg a b) := of_two rfl
theorem ifb (a b : Operand) : Statement (.ifb a b) := of_two rfl
theorem jsr (b : Operand) : Statement (.jsr b) := by
  have := owns_le_one b
  simp only [Statement, Instr.length, Instr.trailingWords]
  omega

end Sys2Proof.Laws.LengthBound
end

