-- ==== Sys2Proof/Tests/Slice0.lean ====
section
/-! SUPPORT. Tests/Slice0.lean: the model's own tests. Expected values are the spec's: the S and V numbers are rows of
spec/95_test_vectors.md. `witness_…` shows, for the statement it is named after, that its hypotheses can be met. -/

namespace Sys2Proof.Tests

open Sys2Proof.Machine Sys2Proof.Safety

/-- The reset state, RUNNING, with words placed at an address and PC there: the start state of spec/95_test_vectors.md. -/
def start (at' : Word) (ws : List Word) : State :=
  { State.reset with pc := at', runState := .running, mem := loadWords at'.toNat ws [] }

/-- The next state of a step. -/
def after (s : State) : Option State :=
  match step s with
  | .next t => some t
  | .fault _ => none
  | .refused _ => none

/-- The next state of an instruction. -/
def does (i : Instr) (s : State) : Option State :=
  match exec i s with
  | .next t => some t
  | .fault _ => none
  | .refused _ => none

/-! ## WellFormed: an ill-formed term for each check -/

theorem test_wellFormed_refuses_literal_in_a : (Instr.set (.lit 32) .pop).wellFormed = false := by decide
theorem test_wellFormed_refuses_literal_in_b : (Instr.ifb .pop (.lit 0xFFFF)).wellFormed = false := by decide
theorem test_wellFormed_refuses_literal_in_jsr : (Instr.jsr (.lit 32)).wellFormed = false := by decide
theorem test_wellFormed_accepts_last_literal : (Instr.jsr (.lit 31)).wellFormed = true := by decide
theorem test_slot_wellFormed_refuses_missing_word :
    (Slot.mk (.set .nextInd .nextLit) [3]).wellFormed = false := by decide
theorem test_slot_wellFormed_refuses_extra_word : (Slot.mk (.set .pop .push) [3]).wellFormed = false := by decide

/-! ## Decode: every constructor by a word written out as bbbbbb aaaaaa oooo from R76, R77 and R79 -/

theorem test_decode_set : decode 0b011111_000000_0001#16 = .ok (.set (.reg .A) .nextLit) := by decide
theorem test_decode_add : decode 0b010110_011110_0010#16 = .ok (.add .nextInd (.regOff .I)) := by decide
theorem test_decode_sub : decode 0b100001_011100_0011#16 = .ok (.sub .pc (.lit 1)) := by decide
theorem test_decode_mul : decode 0b000001_000000_0100#16 = .ok (.mul (.reg .A) (.reg .B)) := by decide
theorem test_decode_div : decode 0b011010_001111_0101#16 = .ok (.div (.regInd .J) .push) := by decide
theorem test_decode_mod : decode 0b100011_011101_0110#16 = .ok (.mod .o (.lit 3)) := by decide
theorem test_decode_shl : decode 0b111111_000000_0111#16 = .ok (.shl (.reg .A) (.lit 31)) := by decide
theorem test_decode_shr : decode 0b010000_010111_1000#16 = .ok (.shr (.regOff .J) (.regOff .A)) := by decide
theorem test_decode_and : decode 0b001000_000011_1001#16 = .ok (.and (.reg .X) (.regInd .A)) := by decide
theorem test_decode_bor : decode 0b011001_011011_1010#16 = .ok (.bor .sp .peek) := by decide
theorem test_decode_xor : decode 0b000100_000101_1011#16 = .ok (.xor (.reg .Z) (.reg .Y)) := by decide
theorem test_decode_ife : decode 0b011000_011000_1100#16 = .ok (.ife .pop .pop) := by decide
theorem test_decode_ifn : decode 0b100000_000110_1101#16 = .ok (.ifn (.reg .I) (.lit 0)) := by decide
theorem test_decode_ifg : decode 0b000010_000000_1110#16 = .ok (.ifg (.reg .A) (.reg .C)) := by decide
theorem test_decode_ifb : decode 0b000010_111111_1111#16 = .ok (.ifb (.lit 31) (.reg .C)) := by decide
theorem test_decode_jsr : decode 0b011111_000001_0000#16 = .ok (.jsr .nextLit) := by decide

/-- V110, V111, V112: unrecognized words. -/
theorem test_decode_unrecognized :
    decode 0x0000#16 = .error (.unrecognized 0x0000#16) ∧ decode 0x0020#16 = .error (.unrecognized 0x0020#16) ∧
    decode 0xFC00#16 = .error (.unrecognized 0xFC00#16) := by decide

/-- P6: a slot of three words on the host's big-endian byte stream. -/
theorem test_decodeBytes : decodeBytes [0x7D, 0xE1, 0x00, 0x03, 0x8C, 0x01, 0x00, 0x00] =
    .ok (⟨.set .nextInd .nextLit, [0x0003, 0x8C01]⟩, [0x0000]) := by decide
theorem test_decodeSlot_truncated : decodeSlot [0x7DE1, 0x0003] = .error .truncated := by decide

/-- The row of JSR with operand code 0x3F, and the first step after reset. -/
theorem test_decodeTableWord : decodeTableWord 16 0xFC10 = some (.jsr (.lit 31)) := by decide
theorem test_withFetchWord : (after (State.reset.withFetchWord 16 0xFC10)).map (fun t => (t.pc, t.sp, t.mem)) =
    some (31, 0xFFFF, [(0, 0xFC10), (0xFFFF, 1)]) := by decide

/-! ## Operand forms -/

/-- V4: the address sum wraps. -/
theorem test_resolve_regOff :
    let r := resolve true (.regOff .I) { start 0x0101 [0xFFFF] with regs := State.reset.regs.write .I 1 }
    (r.handle, r.state.pc, r.state.cycles) = (.mem 0x0000, 0x0102, 1) := by decide
/-- V6: SP wraps. -/
theorem test_resolve_pop :
    let r := resolve true .pop { start 0xFFFF [0x0033] with sp := 0xFFFF }
    (r.value, r.handle, r.state.sp) = (0x0033, .mem 0xFFFF, 0) := by decide
/-- V8: PUSH read. -/
theorem test_resolve_push :
    let r := resolve true .push (start 0xFFFF [0x0044])
    (r.value, r.handle, r.state.sp) = (0x0044, .mem 0xFFFF, 0xFFFF) := by decide
/-- R136: in a skipped slot PUSH gives the cell below SP and leaves SP. -/
theorem test_resolve_push_skipped :
    let r := resolve false .push (start 0xFFFF [0x0044])
    (r.value, r.state.sp) = (0x0044, 0) := by decide
/-- V7: PEEK. -/
theorem test_resolve_peek :
    let r := resolve true .peek { start 0xFFFE [0x0022] with sp := 0xFFFE }
    (r.value, r.handle, r.state.sp) = (0x0022, .mem 0xFFFE, 0xFFFE) := by decide

/-! ## Instructions, one step each -/

/-- V27: A's trailing word comes before B's. -/
theorem test_set_two_words :
    (after { start 0x0100 [0x79E1, 0x1000, 0x2000] with
      mem := [(0x0100, 0x79E1), (0x0101, 0x1000), (0x0102, 0x2000), (0x2000, 0x0099)] }).map
      (fun t => (t.mem.read 0x1000, t.pc, t.cycles)) = some (0x0099, 0x0103, 3) := by decide
/-- V31: SP is read after A's push. -/
theorem test_set_push_sp : (after { start 0 [0x6DA1] with sp := 0xFFF0 }).map
    (fun t => (t.sp, t.mem.read 0xFFEF, t.cycles)) = some (0xFFEF, 0xFFEF, 1) := by decide
/-- V43: the carry overwrites a sum stored in O. -/
theorem test_add_to_o : (after { start 0 [0x85D2] with o := 0xFFFF }).map
    (fun t => (t.o, t.pc, t.cycles)) = some (1, 1, 2) := by decide
/-- V36: a read-only destination still sets O. -/
theorem test_add_to_literal : (after (start 0 [0x85F2, 0xFFFF])).map
    (fun t => (t.o, t.pc, t.cycles, t.mem)) = some (1, 2, 3, [(0, 0x85F2), (1, 0xFFFF)]) := by decide
/-- S4. -/
theorem test_sub_borrow : (after { start 0 [0x9403] with regs := State.reset.regs.write .A 3 }).map
    (fun t => (t.regs.a, t.o, t.cycles)) = some (0xFFFE, 0xFFFF, 2) := by decide
/-- V34: SUB PC, 1 loops on itself. -/
theorem test_sub_pc : (after (start 0 [0x85C3])).map (fun t => (t.pc, t.o, t.cycles)) = some (0, 0, 2) := by decide
/-- V46. -/
theorem test_mul_high_half : (after { start 0 [0x0404] with
    regs := (State.reset.regs.write .A 0xFFFF).write .B 0xFFFF }).map
    (fun t => (t.regs.a, t.o, t.cycles)) = some (0x0001, 0xFFFE, 2) := by decide
/-- V51: O by D14. -/
theorem test_div_fraction : (after { start 0 [0x8C05] with regs := State.reset.regs.write .A 1 }).map
    (fun t => (t.regs.a, t.o, t.cycles)) = some (0, 0x5555, 3) := by decide
/-- S5. -/
theorem test_div_by_zero : (after { start 0 [0x8005] with regs := State.reset.regs.write .A 7, o := 0x1234 }).map
    (fun t => (t.regs.a, t.o, t.cycles, t.runState)) = some (0, 0, 3, .running) := by decide
/-- V57. -/
theorem test_mod_keeps_o : (after { start 0 [0x9406] with regs := State.reset.regs.write .A 17, o := 0x1234 }).map
    (fun t => (t.regs.a, t.o, t.cycles)) = some (2, 0x1234, 3) := by decide
/-- V58. -/
theorem test_mod_by_zero : (after { start 0 [0x8006] with regs := State.reset.regs.write .A 7, o := 0x1234 }).map
    (fun t => (t.regs.a, t.o)) = some (0, 0) := by decide
/-- V61. -/
theorem test_shl : (after { start 0 [0x9007] with regs := State.reset.regs.write .A 0xFFFF }).map
    (fun t => (t.regs.a, t.o, t.cycles)) = some (0xFFF0, 0x000F, 2) := by decide
/-- V65: the bit past the 32-bit window is lost. -/
theorem test_shl_31 : (after { start 0 [0x0407] with regs := (State.reset.regs.write .A 3).write .B 31 }).map
    (fun t => (t.regs.a, t.o)) = some (0, 0x8000) := by decide
/-- V70. -/
theorem test_shr : (after { start 0 [0x9008] with regs := State.reset.regs.write .A 0x1234 }).map
    (fun t => (t.regs.a, t.o, t.cycles)) = some (0x0123, 0x4000, 2) := by decide
/-- V73. -/
theorem test_shr_17 : (after { start 0 [0x0408] with regs := (State.reset.regs.write .A 0xFFFF).write .B 17 }).map
    (fun t => (t.regs.a, t.o)) = some (0, 0x7FFF) := by decide
/-- V76. -/
theorem test_and : (after { start 0 [0x7C09, 0x3C3C] with regs := State.reset.regs.write .A 0xF0F0, o := 5 }).map
    (fun t => (t.regs.a, t.o, t.pc, t.cycles)) = some (0x3030, 5, 2, 2) := by decide
/-- V77. -/
theorem test_bor : (after { start 0 [0x7C0A, 0x0F00] with regs := State.reset.regs.write .A 0xF0F0, o := 5 }).map
    (fun t => (t.regs.a, t.o, t.pc, t.cycles)) = some (0xFFF0, 5, 2, 2) := by decide
/-- V78. -/
theorem test_xor : (after { start 0 [0x7C0B, 0xFFFF] with regs := State.reset.regs.write .A 0xF0F0, o := 5 }).map
    (fun t => (t.regs.a, t.o, t.pc, t.cycles)) = some (0x0F0F, 5, 2, 2) := by decide
/-- V98, first slot: POP, POP compares two cells. -/
theorem test_ife_pop_pop : (after { start 0 [0x618C] with sp := 0xFFFE, mem := [(0, 0x618C), (0xFFFE, 1), (0xFFFF, 2)] }).map
    (fun t => (t.sp, t.skip, t.cycles)) = some (0, true, 3) := by decide
/-- V99, the skipped IFE: both operands read the same cell, the chain ends. -/
theorem test_ife_skipped : (after { start 1 [0x618C] with
    sp := 0xFFFE, skip := true, mem := [(1, 0x618C), (0xFFFE, 1), (0xFFFF, 2)] }).map
    (fun t => (t.sp, t.skip, t.pc, t.cycles)) = some (0xFFFE, false, 2, 2) := by decide
/-- V83. -/
theorem test_ifn : (after { start 0 [0x080D] with regs := (State.reset.regs.write .A 5).write .C 6 }).map
    (fun t => (t.skip, t.pc, t.cycles)) = some (false, 1, 2) := by decide
/-- V87: unsigned. -/
theorem test_ifg_unsigned : (after { start 0 [0x080E] with regs := (State.reset.regs.write .A 0x8000).write .C 0x7FFF }).map
    (fun t => (t.skip, t.cycles)) = some (false, 2) := by decide
/-- V85: equal is not greater. -/
theorem test_ifg_equal : (after { start 0 [0x080E] with regs := (State.reset.regs.write .A 5).write .C 5 }).map
    (fun t => (t.skip, t.cycles)) = some (true, 3) := by decide
/-- V89. -/
theorem test_ifb : (after { start 0 [0x080F] with regs := (State.reset.regs.write .A 0x00F0).write .C 0x0F00 }).map
    (fun t => (t.skip, t.cycles)) = some (true, 3) := by decide
/-- V100. -/
theorem test_jsr_next_word : (after (start 1 [0x7C10, 0x0006])).map
    (fun t => (t.sp, t.mem.read 0xFFFF, t.pc, t.cycles)) = some (0xFFFF, 0x0003, 6, 3) := by decide
/-- V102: the top of stack and PC are exchanged. -/
theorem test_jsr_pop : (after { start 0 [] with sp := 0xFFF0, mem := [(0, 0x6010), (0xFFF0, 0x0100)] }).map
    (fun t => (t.sp, t.mem.read 0xFFF0, t.pc, t.cycles)) = some (0xFFF0, 0x0001, 0x0100, 2) := by decide
/-- V113: a trailing word after an unrecognized word is not consumed. -/
theorem test_unrecognized : (after (start 0 [0x7C00, 0x1234])).map
    (fun t => (t.runState, t.pc, t.cycles)) = some (.halted, 1, 0) := by decide
/-- V117: an instruction straddles the top of memory. -/
theorem test_straddle : (after { start 0 [] with pc := 0xFFFF, mem := [(0, 0x0030), (0xFFFF, 0x7C01)] }).map
    (fun t => (t.regs.a, t.pc)) = some (0x0030, 0x0001) := by decide

/-! ## Host events and the recursive form -/

/-- V114. -/
theorem test_exec_event_in_init : hostExec 0x8C01 State.reset = some ⟨State.reset, false⟩ := by decide
/-- V116. -/
theorem test_exec_event : (hostExec 0x7C01 { start 0x0040 [0x0030] with cycles := 0 }).map
    (fun r => (r.success, r.state.regs.a, r.state.pc, r.state.cycles)) = some (true, 0x0030, 0x0041, 2) := by decide
/-- V96: the chain of R191 as one step. -/
theorem test_stepRec_chain : (stepRec 3 (start 0 [0x840C, 0x801D, 0x7C21, 0x0063])).map
    (fun t => (t.regs.c, t.pc, t.cycles)) = some (0, 4, 8) := by decide
/-- V94: an unrecognized word in a skipped slot, as one step. -/
theorem test_stepRec_unrecognized : (stepRec 2 (start 0 [0x840C, 0x0000])).map
    (fun t => (t.runState, t.pc, t.cycles)) = some (.halted, 2, 3) := by decide
/-- S12: the load file of P1. -/
theorem test_load_file : (hostLoadFile [0x7C, 0x01, 0xFF, 0xFF, 0x84, 0x02, 0x74, 0x11, 0x00, 0x00] State.reset).state.mem =
    [(0, 0x7C01), (1, 0xFFFF), (2, 0x8402), (3, 0x7411)] := by decide
theorem test_load_file_odd : hostLoadFile [0x7C, 0x01, 0xFF] State.reset = ⟨State.reset, false⟩ := by decide

/-! ## Witnesses: the hypotheses of the statements can be met -/

theorem witness_DecodeInvertsEncode : (Instr.ifb (.lit 31) .nextLit).wellFormed = true := by decide

theorem witness_EncodeInvertsDecode : decode 0xFFFF#16 = .ok (.ifb (.lit 31) (.lit 31)) := by decide

theorem witness_EveryWordIsClassified : Unrecognized 0xFC00#16 ∧ ¬Unrecognized 0x0010#16 ∧ ¬Unrecognized 0x0001#16 := by
  simp only [Unrecognized]; decide

theorem witness_SlotDecodeInvertsSlotEncode :
    (Slot.mk (.set .nextInd .nextLit) [0x0003, 0x8C01]).wellFormed = true ∧ (Slot.mk (.set .pop .push) []).wellFormed = true := by
  decide

theorem witness_MemWriteSetsOneCell : (0xFFFF#16 : Word) ≠ 0x0000#16 := by decide

theorem witness_CanonicalMemoriesReadingAlikeAreEqual :
    Memory.wf [(0, 5), (0xFFFF, 7)] = true ∧ Memory.wf [(0xFFFF, 7), (0, 5)] = false ∧
    ∀ addr, Memory.read [(0, 5), (0xFFFF, 7)] addr = Memory.read [(0, 5), (0xFFFF, 7)] addr :=
  ⟨by decide, by decide, fun _ => rfl⟩

/-- P6 after the fetch of its first word. -/
def p6 : State := { start 0 [0x7DE1, 0x0003, 0x8C01] with pc := 1 }

/-- R204: a call whose push lands on its own target. -/
def callOnItself : State := { start 0 [0x9410] with pc := 1, sp := 6 }

theorem witness_StoreIsSeenByNextFetch :
    (∃ t, p6.skip = false ∧ p6.runState = .running ∧ exec (.set .nextInd .nextLit) p6 = .next t ∧
      destination (.set .nextInd .nextLit) = some .nextInd ∧ resultOf (.set .nextInd .nextLit) p6 = some 0x8C01#16 ∧
      placeA true .nextInd p6 = .mem t.pc ∧ decode t.fetched = .ok (.set (.reg .A) (.lit 3))) ∧
    (∃ t, callOnItself.skip = false ∧ callOnItself.runState = .running ∧ exec (.jsr (.lit 5)) callOnItself = .next t ∧
      spAfter true (.lit 5) callOnItself.sp - 1#16 = t.pc ∧ decode t.fetched = .ok (.set (.reg .A) (.reg .A))) :=
  ⟨⟨_, rfl, rfl, rfl, by decide, by decide, by decide, by decide⟩, ⟨_, rfl, rfl, rfl, by decide, by decide⟩⟩

/-- R155 and R156 by zero, R157 by 16 (D15). -/
theorem test_resultOf_corners :
    resultOf (.div (.lit 9) (.lit 0)) State.reset = some 0 ∧ resultOf (.mod (.lit 9) (.lit 0)) State.reset = some 0 ∧
    resultOf (.shl (.lit 9) (.lit 16)) State.reset = some 0 := by decide

theorem witness_StepKeepsInvariant : ∃ t, Inv (start 0 [0x7C10, 0x0006]) ∧ step (start 0 [0x7C10, 0x0006]) = .next t :=
  ⟨_, ⟨by decide, by decide⟩, rfl⟩

theorem witness_HostEventsKeepInvariant : ∃ r, Inv State.reset ∧ hostEvent (.load [0x7C01, 0xFFFF]) State.reset = some r :=
  ⟨_, ⟨by decide, by decide⟩, rfl⟩

theorem witness_StepRunsTheDecodedInstruction : (start 0 [0x840C]).runState = .running ∧
    decode ((start 0 [0x840C]).mem.read (start 0 [0x840C]).pc) = .ok (.ife (.reg .A) (.lit 1)) := by decide

theorem witness_UnrecognizedWordHalts : (start 0 []).runState = .running ∧
    Unrecognized ((start 0 []).mem.read (start 0 []).pc) := by simp only [Unrecognized]; decide

theorem witness_OnlyDecodeErrorLeavesRunning :
    ((start 0 []).runState = .running ∧ decode ((start 0 []).mem.read 0) = .error (.unrecognized 0)) ∧
    ((start 0 [0x0001]).runState = .running ∧ decode ((start 0 [0x0001]).mem.read 0) = .ok (.set (.reg .A) (.reg .A))) := by
  decide

theorem witness_NothingMovesOutsideRunning : State.reset.runState ≠ .running := by decide

theorem witness_CyclesAdvanceOnlyInRunningAndNeverDecrease :
    (∃ t, step (start 0 [0x8402]) = .next t) ∧
    (∃ r, hostEvent .run State.reset = some r ∧ HostEvent.run ≠ .reset ∧ HostEvent.run ≠ .haltWithReset) :=
  ⟨⟨_, rfl⟩, ⟨_, rfl, by decide, by decide⟩⟩

theorem witness_CyclesAreNotFunctional : ∃ t, step (start 0 [0x8402]) = .next t := ⟨_, rfl⟩

/-- V93's skipped `SET PUSH, 1`. -/
def skipped : State := { start 1 [0x85A1] with skip := true }

theorem witness_SkippedSlotNeverWrites : ∃ t, skipped.skip = true ∧ skipped.runState = .running ∧ step skipped = .next t :=
  ⟨_, rfl, rfl, rfl⟩

theorem witness_GeneralRegistersChangeOnlyAsDestination : ∃ t, exec (.set (.reg .J) (.lit 5)) State.reset = .next t ∧
    t.regs.read .J ≠ State.reset.regs.read .J := ⟨_, rfl, by decide⟩

theorem witness_OverflowChangesOnlyByItsWriters : ∃ t, exec (.sub (.reg .A) (.lit 5)) State.reset = .next t ∧
    t.o ≠ State.reset.o := ⟨_, rfl, by decide⟩

theorem witness_MemoryChangesOnlyWhereStored :
    (∃ t, exec (.set .push (.lit 5)) State.reset = .next t ∧ t.mem.read 0xFFFF ≠ State.reset.mem.read 0xFFFF) ∧
    (∃ t, exec (.jsr (.lit 5)) { State.reset with pc := 1 } = .next t ∧ t.mem.read 0xFFFF ≠ State.reset.mem.read 0xFFFF) :=
  ⟨⟨_, rfl, by decide⟩, ⟨_, rfl, by decide⟩⟩

/-- R191's chain. -/
def chain : State := start 0 [0x840C, 0x801D, 0x7C21, 0x0063]

theorem witness_FlatFormAgreesWithRecursiveForm : ∃ t, chain.runState = .running ∧ chain.skip = false ∧ stepRec 3 chain = some t :=
  ⟨_, rfl, rfl, rfl⟩

theorem witness_ChainFuelIsEnough : ∃ t, stepRec 3 chain = some t := ⟨_, rfl⟩

theorem witness_ResolvedValueIsWhatThePlaceHolds :
    (resolve true .pop State.reset).handle ≠ .none ∧ (resolve true .nextLit State.reset).handle = .none := by decide

theorem witness_StoreWritesItsPlaceOnly : (Handle.mem 0xFFFF) ≠ .none ∧ Handle.regO ≠ .mem 0xFFFF := by decide

theorem witness_SetStoresOperandB : State.reset.skip = false := rfl
theorem witness_AddStoresSumAndCarry : State.reset.skip = false := rfl
theorem witness_SubStoresDifferenceAndBorrow : State.reset.skip = false := rfl
theorem witness_MulStoresProductHalves : State.reset.skip = false := rfl

theorem witness_DivStoresQuotientAndFraction : State.reset.skip = false ∧
    valueB true (.reg .A) (.lit 0) State.reset = 0#16 ∧ valueB true (.reg .A) (.lit 1) State.reset ≠ 0#16 := by decide

theorem witness_ModStoresRemainder : State.reset.skip = false ∧
    valueB true (.reg .A) (.lit 0) State.reset = 0#16 ∧ valueB true (.reg .A) (.lit 1) State.reset ≠ 0#16 := by decide

/-- A shift by each boundary count: 0, 15, 16, 31, 32. -/
theorem witness_ShlStoresShiftAndHighBits :
    let by' (n : Word) := valueB true (.reg .A) (.reg .B) { State.reset with regs := State.reset.regs.write .B n }
    State.reset.skip = false ∧ (by' 0).toNat = 0 ∧ (by' 15).toNat = 15 ∧ (by' 16).toNat = 16 ∧ (by' 31).toNat = 31 ∧
    (by' 32).toNat = 32 := by decide

theorem witness_ShrStoresShiftAndLowBits :
    let by' (n : Word) := valueB true (.reg .A) (.reg .B) { State.reset with regs := State.reset.regs.write .B n }
    State.reset.skip = false ∧ (by' 0).toNat = 0 ∧ (by' 15).toNat = 15 ∧ (by' 16).toNat = 16 ∧ (by' 31).toNat = 31 ∧
    (by' 32).toNat = 32 := by decide

theorem witness_LogicStoresBitwiseResult : State.reset.skip = false := rfl

theorem witness_SkippedArithmeticPassesBy : skipped.skip = true ∧ (Instr.set .push (.lit 1), 1) ∈ aluWithBase .push (.lit 1) := by
  decide

/-- The two ways a conditional's clause can go. -/
theorem witness_conditionals :
    valueA State.reset.commit (.reg .A) State.reset = valueB State.reset.commit (.reg .A) (.lit 0) State.reset ∧
    valueA State.reset.commit (.reg .A) State.reset ≠ valueB State.reset.commit (.reg .A) (.lit 1) State.reset := by decide

theorem witness_FalseConditionalPassesOverNextSlot : ∃ u,
    (start 0 [0x840C, 0x7C11, 0x0063]).runState = .running ∧
    decode (start 0 [0x840C, 0x7C11, 0x0063]).fetched = .ok (.ife (.reg .A) (.lit 1)) ∧
    exec (.ife (.reg .A) (.lit 1)) (start 0 [0x840C, 0x7C11, 0x0063]).advance = .next u ∧ u.skip = true ∧
    decode u.fetched = .ok (.set (.reg .B) .nextLit) ∧ destination (.set (.reg .B) .nextLit) ≠ none :=
  ⟨_, rfl, by decide, rfl, by decide, by decide, by decide⟩

theorem witness_JsrPushesReturnAddressAndJumps : State.reset.skip = false := rfl

theorem witness_SkippedJsrPassesBy : skipped.skip = true := rfl

theorem witness_SetPcPopReturnsFromCall : ∃ t, State.reset.skip = false ∧ exec (.jsr (.lit 5)) State.reset = .next t :=
  ⟨_, rfl, rfl⟩

theorem witness_SetPushPopChangesNothing : (start 0xFFFF [0x00AA]).skip = false ∧ (start 0xFFFF [0x00AA]).mem.wf = true := by
  decide

theorem witness_SubPcOneLoopsOnItself : (start 0xFFFF [0x85C3]).runState = .running ∧ (start 0xFFFF [0x85C3]).skip = false ∧
    (start 0xFFFF [0x85C3]).mem.read (start 0xFFFF [0x85C3]).pc = 0x85C3#16 := by decide

theorem witness_LifeCycleEvents : State.reset.runState = .init ∧ (start 0 []).runState = .running ∧ (start 0 []).skip = false ∧
    skipped.skip = true ∧ (start 0 []).decodeError.runState = .halted ∧ (start 0 []).decodeError.runState ≠ .init := by decide

theorem witness_ExecEventRunsOneInstruction :
    State.reset.runState ≠ .running ∧ skipped.skip = true ∧
    (start 1 []).runState = .running ∧ (start 1 []).skip = false ∧
    decode 0x0000#16 = .error (.unrecognized 0) ∧
    (decode 0x8C01#16 = .ok (.set (.reg .A) (.lit 3)) ∧ ∃ t, exec (.set (.reg .A) (.lit 3)) (start 1 []) = .next t ∧ t.skip = false) ∧
    (decode 0x840C#16 = .ok (.ife (.reg .A) (.lit 1)) ∧ ∃ t, exec (.ife (.reg .A) (.lit 1)) (start 1 []) = .next t ∧
      t.skip = true ∧ decode t.fetched = .error (.unrecognized 0)) :=
  ⟨by decide, rfl, rfl, rfl, by decide, ⟨by decide, _, rfl, by decide⟩, ⟨by decide, _, rfl, by decide, by decide⟩⟩

/-- A cell of a run of cells that all hold one word. -/
theorem lookup_filled (c : Word) (n lo a : Nat) (h : lo ≤ a) (ha : a < lo + n) :
    Memory.lookup ((List.range' lo n).map fun k => (k, c)) a = c := by
  induction n generalizing lo with
  | zero => omega
  | succ n ih =>
    simp only [List.range'_succ, List.map_cons, Memory.lookup]
    split
    · rfl
    · exact ih _ (by omega) (by omega)

/-- R189's memory: all 65536 words are `IFE A, 1`. -/
def hungMemory : Memory := (List.range' 0 65536).map fun k => (k, 0x840C#16)

theorem hungMemory_read (a : Word) : hungMemory.read a = 0x840C#16 := lookup_filled _ _ _ _ (Nat.zero_le _) (by omega)

/-- R189's machine, over any memory. -/
def hung (m : Memory) (pc : Word) (n : Nat) (skip : Bool) : State :=
  { State.reset with runState := .running, mem := m, pc := pc, cycles := n, skip := skip }

theorem hung_exec (m : Memory) (pc : Word) (n : Nat) (skip : Bool) :
    exec (.ife (.reg .A) (.lit 1)) (hung m pc n skip) = .next (hung m pc (n + 3) true) := by
  cases skip <;> rfl

theorem hung_run (k : Nat) (pc : Word) (n : Nat) : ∃ pc' n',
    Host.Core.run core k (hung hungMemory pc n true) = .next (hung hungMemory pc' n' true) := by
  induction k generalizing pc n with
  | zero => exact ⟨pc, n, rfl⟩
  | succ k ih =>
    have hf : (hung hungMemory pc n true).fetched = 0x840C#16 := hungMemory_read pc
    have hd : decode 0x840C#16 = .ok (.ife (.reg .A) (.lit 1)) := by decide
    have hs : step (hung hungMemory pc n true) = .next (hung hungMemory (pc + 1#16) (n + 3) true) := by
      rw [step_running rfl, hf, hd]
      exact hung_exec _ _ _ _
    rw [run_succ_of_step hs]
    exact ih _ _

/-- V91's chain, one that meets an unrecognized word in its third slot, and R189's, which never ends. -/
theorem witness_ExecEventRunsTheWholeChain :
    decode 0x840C#16 = .ok (.ife (.reg .A) (.lit 1)) ∧
    (∃ t u, (start 1 [0x7C11, 0x0063]).runState = .running ∧ (start 1 [0x7C11, 0x0063]).skip = false ∧
      exec (.ife (.reg .A) (.lit 1)) (start 1 [0x7C11, 0x0063]) = .next t ∧ t.skip = true ∧
      Host.Core.run core 1 t = .next u ∧ u.skip = false ∧ u.runState = .running) ∧
    (∃ t v u, (start 1 [0x840C]).runState = .running ∧ (start 1 [0x840C]).skip = false ∧
      exec (.ife (.reg .A) (.lit 1)) (start 1 [0x840C]) = .next t ∧ t.skip = true ∧
      Host.Core.run core 1 t = .next v ∧ v.skip = true ∧
      Host.Core.run core 2 t = .next u ∧ u.skip = false ∧ u.runState = .halted) ∧
    (∃ t, (hung hungMemory 1 0 false).runState = .running ∧ (hung hungMemory 1 0 false).skip = false ∧
      exec (.ife (.reg .A) (.lit 1)) (hung hungMemory 1 0 false) = .next t ∧ t.skip = true ∧
      ∀ k, ∃ v, Host.Core.run core (k + 1) t = .next v ∧ v.skip = true) := by
  refine ⟨by decide, ⟨_, _, rfl, rfl, rfl, rfl, rfl, by decide, by decide⟩,
    ⟨_, _, _, rfl, rfl, rfl, rfl, rfl, by decide, rfl, by decide, by decide⟩,
    ⟨_, rfl, rfl, hung_exec _ _ _ _, rfl, fun k => ?_⟩⟩
  obtain ⟨pc, n, h⟩ := hung_run (k + 1) 1 (0 + 3)
  exact ⟨_, h, rfl⟩

theorem witness_LoaderFillsMemoryFromZero :
    State.reset.runState = .init ∧ (List.replicate 65536 (1#16 : Word)).length ≤ 65536 ∧
    65536 < (List.replicate 65537 (1#16 : Word)).length ∧ (start 0 []).runState ≠ .init :=
  ⟨rfl, List.length_replicate.le, Nat.lt_of_lt_of_eq (by decide) List.length_replicate.symm, by decide⟩

end Sys2Proof.Tests
end

section
/-! PROOFS. The host's events keep the invariant: one lemma for each event, then the statement over all of them. -/

namespace Sys2Proof.Safety

open Sys2Proof.Machine

/-- The invariant passes on to a state with the same run state and `SKIP` whose memory is canonical if it was before:
what the slots, `Exec` and the store through a handle keep. -/
theorem Inv.of_keeps {s t : State} (hs : Inv s)
    (h : (s.mem.wf = true → t.mem.wf = true) ∧ t.runState = s.runState ∧ t.skip = s.skip) : Inv t := by
  obtain ⟨hmem, hrun, hskip⟩ := h
  exact ⟨hmem hs.memWf, fun ht => hskip.trans (hs.skipOnlyRunning (hrun ▸ ht))⟩

/-- R34: reset leaves empty memory and `SKIP` = 0. -/
theorem inv_reset : Inv State.reset := ⟨Memory.wf_reset, fun _ => rfl⟩

/-- R108: `run` moves to RUNNING, where `SKIP` is free. -/
theorem Inv.hostRun {s : State} (hs : Inv s) : Inv (hostRun s).state := by
  unfold Machine.hostRun
  split
  · exact ⟨hs.memWf, fun hnot => absurd rfl hnot⟩
  all_goals exact hs

/-- R213: `halt` leaves RUNNING only with `SKIP` = 0 (D20). -/
theorem Inv.hostHalt {s : State} (hs : Inv s) : Inv (hostHalt s).state := by
  unfold Machine.hostHalt
  split
  · split
    · exact hs
    · next hskip => exact ⟨hs.memWf, fun _ => Bool.eq_false_of_not_eq_true hskip⟩
  all_goals exact hs

/-- R102: an answered `exec(w)` is either ignored or the end of a chain, whatever slots the chain has. -/
theorem Inv.hostExec {w : Word} {s : State} {r : Reply} (hs : Inv s) (h : hostExec w s = some r) : Inv r.state := by
  unfold Machine.hostExec at h
  split at h
  · split at h
    · cases h; exact hs
    · split at h
      · next t hok => cases h; exact hs.of_keeps (execRec_keeps (.inl hok))
      · next t herr => cases h; exact hs.of_keeps (execRec_keeps (.inr herr))
      · cases h
  all_goals cases h; exact hs

/-- R62: loading writes memory word by word and touches nothing else. -/
theorem Inv.hostLoad {ws : List Word} {s : State} (hs : Inv s) : Inv (hostLoad ws s).state := by
  unfold Machine.hostLoad
  split
  · split
    · exact hs.of_keeps ⟨loadWords_wf, rfl, rfl⟩
    · exact hs
  all_goals exact hs

/-- R63: a write by the host is a store through a handle. -/
theorem Inv.hostWrite {h : Handle} {v : Word} {s : State} (hs : Inv s) : Inv (hostWrite h v s).state := by
  unfold Machine.hostWrite
  split
  · split
    · exact hs
    · exact hs.of_keeps ⟨store_wf, store_runState h v s, store_skip h v s⟩
  all_goals exact hs

/-- Settles O14, by the events; the one that runs the core, `exec(w)`, rests on the induction over the chain's fuel in
`execRec_keeps`. -/
theorem hostEventsKeepInvariant : Obligations.HostEventsKeepInvariant := by
  intro e s r hs h
  cases e with
  | exec w => exact hs.hostExec h
  | reset => cases h; exact inv_reset
  | haltWithReset => cases h; exact inv_reset
  | run => cases h; exact hs.hostRun
  | halt => cases h; exact hs.hostHalt
  | load ws => cases h; exact hs.hostLoad
  | write p v => cases h; exact hs.hostWrite

end Sys2Proof.Safety
end

section
/-! PROOFS. What one slot can do, by the three kinds of instruction, and from it: reset, the invariant and the run
state, and which instructions change a general register or O. -/

namespace Sys2Proof.Machine

open Sys2Proof.Safety

/-- R121, R123: of all operand forms only register-direct resolves to a general register. -/
theorem placeA_eq_reg {commit : Bool} {a : Operand} {s : State} {r : Reg} :
    placeA commit a s = .reg r ↔ a = .reg r := by
  cases a <;> simp [placeA, resolve]

/-- R121, R131: of all operand forms only O itself resolves to O. -/
theorem placeA_eq_regO {commit : Bool} {a : Operand} {s : State} : placeA commit a s = .regO ↔ a = .o := by
  cases a <;> simp [placeA, resolve]

/-- R148: writing O leaves the general registers alone. -/
@[simp] theorem writeO_regs (newO : Option Word) (s : State) : (writeO newO s).regs = s.regs := by
  cases newO <;> rfl

/-- R148: O after the write, "unchanged" being none. -/
theorem writeO_o (newO : Option Word) (s : State) : (writeO newO s).o = newO.getD s.o := by
  cases newO <;> rfl

/-- The three kinds of instruction (R103), with the next state each leaves: an arithmetic or logic slot (R148), whose
`F_op` gives O no value unless the instruction is one that updates it (R28), a conditional slot (R180), a call (R200). -/
inductive SlotRun (i : Instr) (s : State) : State → Prop where
  | alu (f : Word → Word → AluOut) (base : Nat) (a b : Operand) (hdest : destination i = some a)
      (hnewO : updatesO i = false → ∀ va vb, (f va vb).newO = none) :
      SlotRun i s ((alu f base a b s.commit s).endSlot false)
  | cond (p : Word → Word → Bool) (a b : Operand) (hdest : destination i = none) :
      SlotRun i s ((cond p a b s.commit s).state.endSlot (!(cond p a b s.commit s).holds))
  | jsr (b : Operand) (hi : i = .jsr b) : SlotRun i s ((bodyJsr b s.commit s).endSlot false)

/-- What a next state of `exec` is, by the kind of instruction. -/
theorem exec_slotRun {i : Instr} {s t : State} (h : exec i s = .next t) : SlotRun i s t := by
  cases i <;> cases h
  case set a b => exact .alu fSet baseMove a b rfl fun _ _ _ => rfl
  case and a b => exact .alu fAnd baseMove a b rfl fun _ _ _ => rfl
  case bor a b => exact .alu fBor baseMove a b rfl fun _ _ _ => rfl
  case xor a b => exact .alu fXor baseMove a b rfl fun _ _ _ => rfl
  case add a b => exact .alu fAdd baseArith a b rfl nofun
  case sub a b => exact .alu fSub baseArith a b rfl nofun
  case mul a b => exact .alu fMul baseArith a b rfl nofun
  case shl a b => exact .alu fShl baseArith a b rfl nofun
  case shr a b => exact .alu fShr baseArith a b rfl nofun
  case div a b => exact .alu fDiv baseDivide a b rfl nofun
  case mod a b => exact .alu fMod baseDivide a b rfl nofun
  case ife a b => exact .cond pIfe a b rfl
  case ifn a b => exact .cond pIfn a b rfl
  case ifg a b => exact .cond pIfg a b rfl
  case ifb a b => exact .cond pIfb a b rfl
  case jsr b => exact .jsr b rfl

/-- R180: a conditional leaves the general registers and O alone, in either mode. -/
theorem cond_regs_o (p : Word → Word → Bool) (a b : Operand) (c : Bool) (s : State) :
    (cond p a b c s).state.regs = s.regs ∧ (cond p a b c s).state.o = s.o := by
  rw [cond_eq]; exact ⟨rfl, rfl⟩

/-- R200, R201: a call leaves the general registers and O alone, in either mode. -/
theorem bodyJsr_regs_o (b : Operand) (c : Bool) (s : State) :
    (bodyJsr b c s).regs = s.regs ∧ (bodyJsr b c s).o = s.o := by
  cases c <;> simp [bodyJsr, pushPcAndJump, resolve_state]

/-- R149, R22: an arithmetic or logic instruction changes a general register only in commit mode, and only the one its
operand A is. -/
theorem alu_changes_reg {f : Word → Word → AluOut} {base : Nat} {a b : Operand} {c : Bool} {s : State} {r : Reg}
    (h : (alu f base a b c s).regs.read r ≠ s.regs.read r) : c = true ∧ a = .reg r := by
  cases c with
  | false => rw [alu_noncommit] at h; exact absurd rfl h
  | true =>
    rw [alu_commit, writeO_regs, store_regs] at h
    exact ⟨rfl, placeA_eq_reg.mp (ite_ne_right_iff.mp h).1⟩

/-- R149, R28: an arithmetic or logic instruction changes O only in commit mode, and only if its rule gives O a value or
its operand A is O. -/
theorem alu_changes_o {f : Word → Word → AluOut} {base : Nat} {a b : Operand} {c : Bool} {s : State}
    (h : (alu f base a b c s).o ≠ s.o) : c = true ∧ ((∃ va vb, (f va vb).newO ≠ none) ∨ a = .o) := by
  cases c with
  | false => rw [alu_noncommit] at h; exact absurd rfl h
  | true =>
    rw [alu_commit, writeO_o, store_o] at h
    refine ⟨rfl, or_iff_not_imp_left.mpr fun hnone => ?_⟩
    push Not at hnone
    rw [hnone] at h
    exact placeA_eq_regO.mp (ite_ne_right_iff.mp h).1

/-- R33: the commit flag is the negation of `SKIP`. -/
theorem State.commit_eq_true {s : State} : s.commit = true ↔ s.skip = false := by
  simp [State.commit]

/-- Every slot keeps the canonical form of memory and the run state. -/
theorem exec_keeps {i : Instr} {s t : State} (h : exec i s = .next t) :
    (s.mem.wf = true → t.mem.wf = true) ∧ t.runState = s.runState := by
  obtain ⟨u, ⟨hbody, rfl⟩ | ⟨hbody, rfl⟩⟩ := exec_next h
  · obtain ⟨hmem, hrun, -⟩ := slotBody_keeps (.inl hbody); exact ⟨hmem, hrun⟩
  · obtain ⟨hmem, hrun, -⟩ := slotBody_keeps (.inr hbody); exact ⟨hmem, hrun⟩

/-- R30, R221: outside RUNNING the core idles. -/
theorem step_idle {s : State} (h : s.runState ≠ .running) : step s = .next s := by
  unfold step
  split
  · next hrun => exact absurd hrun h
  · rfl
  · rfl

end Sys2Proof.Machine

namespace Sys2Proof.Safety

open Sys2Proof.Machine

/-- Settles O13, by the three answers of `step`: the idle step changes nothing, DecodeError clears `SKIP` as it leaves
RUNNING, and a slot stays in RUNNING, where `SKIP` is free. -/
theorem stepKeepsInvariant : Obligations.StepKeepsInvariant := by
  intro s t hs h
  obtain ⟨-, rfl⟩ | ⟨-, e, -, rfl⟩ | ⟨hrun, i, -, hexec⟩ := step_cases h
  · exact hs
  · exact ⟨hs.memWf, fun _ => rfl⟩
  · obtain ⟨hmem, hkept⟩ := exec_keeps hexec
    exact ⟨hmem hs.memWf, fun hnot => absurd (hkept.trans hrun) hnot⟩

/-- Settles O22, by the kinds of instruction: only an arithmetic or logic one can change a general register. -/
theorem generalRegistersChangeOnlyAsDestination : Obligations.GeneralRegistersChangeOnlyAsDestination := by
  intro i s t r h hne
  cases exec_slotRun h with
  | alu f base a b hdest _ =>
    obtain ⟨hcommit, rfl⟩ := alu_changes_reg hne
    exact ⟨State.commit_eq_true.mp hcommit, hdest⟩
  | cond p a b _ =>
    obtain ⟨hregs, -⟩ := cond_regs_o p a b s.commit s
    exact absurd (congrArg (Regs.read · r) hregs) hne
  | jsr b _ =>
    obtain ⟨hregs, -⟩ := bodyJsr_regs_o b s.commit s
    exact absurd (congrArg (Regs.read · r) hregs) hne

/-- Settles O23, by the kinds of instruction: only an arithmetic or logic one can change O, and one whose rule never
gives O a value does it through operand A. -/
theorem overflowChangesOnlyByItsWriters : Obligations.OverflowChangesOnlyByItsWriters := by
  intro i s t h hne
  cases exec_slotRun h with
  | alu f base a b hdest hnewO =>
    obtain ⟨hcommit, ⟨va, vb, hsome⟩ | rfl⟩ := alu_changes_o hne
    · exact ⟨State.commit_eq_true.mp hcommit, .inl (Bool.eq_true_of_not_eq_false fun hf => hsome (hnewO hf va vb))⟩
    · exact ⟨State.commit_eq_true.mp hcommit, .inr hdest⟩
  | cond p a b _ =>
    obtain ⟨-, ho⟩ := cond_regs_o p a b s.commit s
    exact absurd ho hne
  | jsr b _ =>
    obtain ⟨-, ho⟩ := bodyJsr_regs_o b s.commit s
    exact absurd ho hne

/-- Settles O11, field by field; `hostReset` answers the reset state from every state. -/
theorem resetValues : Obligations.ResetValues := by
  have hregs : ∀ r, State.reset.regs.read r = 0#16 := fun r => by cases r <;> rfl
  exact ⟨hregs, rfl, rfl, rfl, Memory.read_nil, rfl, rfl, rfl, fun _ => rfl⟩

/-- Settles O12, by the invariant's two parts at reset. -/
theorem resetMeetsInvariant : Obligations.ResetMeetsInvariant := inv_reset

/-- Settles O18, by the two run states in which `step` idles. -/
theorem nothingMovesOutsideRunning : Obligations.NothingMovesOutsideRunning := fun _ => step_idle

end Sys2Proof.Safety
end

section
/-! PROOFS. The flat form and the recursive form agree: a slot's body does not read `SKIP`, so both forms take the same
slots; both forms satisfy one recursion over the slots of a chain. -/

namespace Sys2Proof.Machine

open Sys2Proof.Safety

/-- R33: `SKIP` set anew, last setting wins. -/
@[simp] theorem State.endSlot_endSlot (s : State) (k k' : Bool) : (s.endSlot k).endSlot k' = s.endSlot k' := rfl

/-- Setting `SKIP` to what it is changes nothing. -/
theorem State.endSlot_of_skip {s : State} {k : Bool} (h : s.skip = k) : s.endSlot k = s := by
  subst h; rfl

/-- R101: a fetch leaves the commit flag alone. -/
@[simp] theorem State.advance_commit (s : State) : s.advance.commit = s.commit := rfl

/-- R121: resolution does not read `SKIP`. -/
theorem resolve_endSlot (c : Bool) (x : Operand) (s : State) (k : Bool) :
    resolve c x (s.endSlot k) =
      ⟨(resolve c x s).value, (resolve c x s).handle, (resolve c x s).state.endSlot k⟩ := by
  cases x <;> cases c <;> rfl

/-- R137: a store does not read `SKIP`. -/
theorem store_endSlot (h : Handle) (v : Word) (s : State) (k : Bool) :
    store h v (s.endSlot k) = (store h v s).endSlot k := by
  cases h <;> rfl

/-- R148: nor does the write of O. -/
theorem writeO_endSlot (newO : Option Word) (s : State) (k : Bool) :
    writeO newO (s.endSlot k) = (writeO newO s).endSlot k := by
  cases newO <;> rfl

/-- R31: nor does a charge. -/
theorem State.charge_endSlot (s : State) (n : Nat) (k : Bool) : (s.endSlot k).charge n = (s.charge n).endSlot k := rfl

/-- R148: an arithmetic or logic body does not read `SKIP`. -/
theorem alu_endSlot (f : Word → Word → AluOut) (base : Nat) (a b : Operand) (c : Bool) (s : State) (k : Bool) :
    alu f base a b c (s.endSlot k) = (alu f base a b c s).endSlot k := by
  cases c <;> simp [alu, resolve_endSlot, State.charge_endSlot, store_endSlot, writeO_endSlot]

/-- R200: a call's body does not read `SKIP`. -/
theorem bodyJsr_endSlot (b : Operand) (c : Bool) (s : State) (k : Bool) :
    bodyJsr b c (s.endSlot k) = (bodyJsr b c s).endSlot k := by
  cases c <;> simp only [bodyJsr, resolve_endSlot, State.charge_endSlot] <;> rfl

/-- A slot's result with `SKIP` set in its state. -/
def SlotResult.endSlot (k : Bool) : SlotResult → SlotResult
  | .done t => .done (t.endSlot k)
  | .skipNext t => .skipNext (t.endSlot k)

/-- R180: a conditional's outcome does not read `SKIP`. -/
theorem condResult_cond_endSlot (p : Word → Word → Bool) (a b : Operand) (c : Bool) (s : State) (k : Bool) :
    condResult (cond p a b c (s.endSlot k)) = (condResult (cond p a b c s)).endSlot k := by
  have hout : cond p a b c (s.endSlot k) = ⟨(cond p a b c s).holds, (cond p a b c s).state.endSlot k⟩ := by
    simp only [cond, resolve_endSlot, State.charge_endSlot]
  rw [hout]
  unfold condResult
  cases (cond p a b c s).holds <;> rfl

/-- R32, R33: what a slot does depends on the commit flag it is handed and not on `SKIP`. -/
theorem slotBody_endSlot (i : Instr) (c : Bool) (s : State) (k : Bool) :
    slotBody i c (s.endSlot k) = (slotBody i c s).endSlot k := by
  cases i
  case jsr b => exact congrArg SlotResult.done (bodyJsr_endSlot b c s k)
  case ife | ifn | ifg | ifb => exact condResult_cond_endSlot _ _ _ c s k
  all_goals exact congrArg SlotResult.done (alu_endSlot _ _ _ _ c s k)

/-- R100: how the recursive `Step` ends, from how its `Exec` did. -/
def stepEnd : Option ExecResult → Option State
  | some (.ok t) => some t
  | some (.decodeError t) => some t.decodeError
  | none => none

/-- The recursive form taken up at any slot of a chain: it executes the slot at PC under the commit flag that `SKIP`
says, itself running with `SKIP` clear. -/
def restOfChain (fuel : Nat) (s : State) : Option State :=
  stepEnd (execRec fuel s.fetched s.commit (s.advance.endSlot false))

/-- R100: the recursive `Step` is the whole chain from its first slot. -/
theorem stepRec_eq_restOfChain {s : State} (h : s.skip = false) (n : Nat) : stepRec n s = restOfChain n s := by
  rw [restOfChain, State.commit_of_skip_false h, State.endSlot_of_skip (s := s.advance) h]
  unfold stepRec stepEnd
  rfl

/-- R103, R181: the recursive form, slot by slot, in terms of the flat form's `step`. -/
theorem restOfChain_succ {s u : State} (hrun : s.runState = .running) (hstep : step s = .next u) (n : Nat) :
    restOfChain (n + 1) s = if u.skip then restOfChain n u else some u := by
  rw [step_running hrun] at hstep
  rw [restOfChain, execRec]
  cases hd : decode s.fetched with
  | error e =>
    simp only [hd] at hstep
    cases hstep
    rfl
  | ok i =>
    simp only [hd] at hstep
    simp only [slotBody_endSlot]
    obtain ⟨v, ⟨hbody, rfl⟩ | ⟨hbody, rfl⟩⟩ := exec_next hstep
    all_goals
      rw [State.advance_commit] at hbody
      rw [hbody]
      rfl

/-- A step that leaves `SKIP` set was a slot of the running core, and the core goes on running. -/
theorem step_running_of_skip {s u : State} (hrun : s.runState = .running) (hstep : step s = .next u)
    (hskip : u.skip = true) : u.runState = .running := by
  obtain ⟨hnot, -⟩ | ⟨-, e, -, rfl⟩ | ⟨-, i, -, hexec⟩ := step_cases hstep
  · exact absurd hrun hnot
  · cases hskip
  · obtain ⟨-, hkept⟩ := exec_keeps hexec
    exact hkept.trans hrun

/-- R224: a step of the running core always has a next state. -/
theorem exists_step_next {s : State} (hrun : s.runState = .running) : ∃ u, step s = .next u := by
  rw [step_running hrun]
  cases decode s.fetched with
  | ok i => exact ⟨_, exec_eq i s.advance⟩
  | error e => exact ⟨_, rfl⟩

/-- R33: the flat form, stepped until `SKIP` is first clear, reaches `t` in at most `n` transitions. -/
def ChainEnds (n : Nat) (s t : State) : Prop :=
  ∃ k, k < n ∧ Host.Core.run core (k + 1) s = .next t ∧ t.skip = false ∧
    ∀ j, j < k → ∃ u, Host.Core.run core (j + 1) s = .next u ∧ u.skip = true

/-- The flat form, transition by transition: the first one either ends the chain or leaves the rest of it. -/
theorem chainEnds_succ {s u t : State} (hstep : step s = .next u) (n : Nat) :
    ChainEnds (n + 1) s t ↔ if u.skip then ChainEnds n u t else u = t := by
  have hfirst : Host.Core.run core 1 s = .next u := run_succ_of_step hstep
  constructor
  · rintro ⟨k, hk, hrunk, hend, hbefore⟩
    cases k with
    | zero =>
      rw [hfirst] at hrunk
      cases hrunk
      simp [hend]
    | succ k =>
      obtain ⟨v, hv, hskip⟩ := hbefore 0 k.succ_pos
      rw [hfirst] at hv
      cases hv
      rw [if_pos hskip]
      refine ⟨k, Nat.lt_of_succ_lt_succ hk, run_succ_of_step hstep ▸ hrunk, hend, fun j hj => ?_⟩
      rw [← run_succ_of_step hstep]
      exact hbefore (j + 1) (Nat.succ_lt_succ hj)
  · cases hskip : u.skip with
    | false =>
      rintro rfl
      exact ⟨0, n.succ_pos, hfirst, hskip, nofun⟩
    | true =>
      rintro ⟨k, hk, hrunk, hend, hbefore⟩
      refine ⟨k + 1, Nat.succ_lt_succ hk, (run_succ_of_step hstep).trans hrunk, hend, fun j hj => ?_⟩
      cases j with
      | zero => exact ⟨u, hfirst, hskip⟩
      | succ j =>
        rw [run_succ_of_step hstep]
        exact hbefore j (Nat.lt_of_succ_lt_succ hj)

/-- The two forms agree from any slot of a chain on, by induction on the slots allowed. -/
theorem restOfChain_eq_some_iff {s t : State} {n : Nat} (hrun : s.runState = .running) :
    restOfChain n s = some t ↔ ChainEnds n s t := by
  induction n generalizing s with
  | zero => exact ⟨nofun, fun ⟨_, hk, _⟩ => absurd hk (Nat.not_lt_zero _)⟩
  | succ n ih =>
    obtain ⟨u, hstep⟩ := exists_step_next hrun
    rw [restOfChain_succ hrun hstep, chainEnds_succ hstep]
    cases hskip : u.skip with
    | true => exact ih (step_running_of_skip hrun hstep hskip)
    | false => simp

end Sys2Proof.Machine

namespace Sys2Proof.Safety

open Sys2Proof.Machine

/-- Settles O25: the recursive `Step` is the chain from its first slot, and from every slot on the two forms agree. -/
theorem flatFormAgreesWithRecursiveForm : Obligations.FlatFormAgreesWithRecursiveForm := by
  intro s t n hrun hskip
  rw [stepRec_eq_restOfChain hskip]
  exact restOfChain_eq_some_iff hrun

end Sys2Proof.Safety
end

section
/-! PROOFS. The store and the host's side of it: the byte stream, reading a cell after a write, the canonical form, the
loader. -/

namespace Sys2Proof

/-- R56: the word of two bytes, as a number. -/
theorem wordOfBytes_toNat (x y : Byte) : (wordOfBytes x y).toNat = 256 * x.toNat + y.toNat := by
  simp only [wordOfBytes, BitVec.toNat_ofNat]
  omega

/-- R56: a word's high byte, as a number. -/
theorem highByte_toNat (v : Word) : (v.extractLsb' 8 8).toNat = v.toNat / 256 := by
  simp only [BitVec.extractLsb'_toNat, Nat.shiftRight_eq_div_pow]
  omega

/-- R56: a word's low byte, as a number. -/
theorem lowByte_toNat (v : Word) : (v.extractLsb' 0 8).toNat = v.toNat % 256 := by
  simp [BitVec.extractLsb'_toNat]

/-- R56: a word is the word of its two bytes. -/
theorem wordOfBytes_high_low (v : Word) : wordOfBytes (v.extractLsb' 8 8) (v.extractLsb' 0 8) = v := by
  apply BitVec.eq_of_toNat_eq
  rw [wordOfBytes_toNat, highByte_toNat, lowByte_toNat]
  exact Nat.div_add_mod _ _

/-- R56: parsing what the serializer emits gives the words back. -/
theorem wordsOfBytes_bytesOfWords (ws : List Word) : wordsOfBytes (bytesOfWords ws) = some ws := by
  induction ws with
  | nil => rfl
  | cons v ws ih =>
    calc wordsOfBytes (bytesOfWords (v :: ws))
        = (wordsOfBytes (bytesOfWords ws)).map (wordOfBytes (v.extractLsb' 8 8) (v.extractLsb' 0 8) :: ·) := rfl
      _ = some (v :: ws) := by rw [ih, wordOfBytes_high_low]; rfl

end Sys2Proof

namespace Sys2Proof.Machine

/-- R50: every number below the size of memory is the address of a cell. -/
theorem toNat_ofNat_of_lt_memWords {k : Nat} (h : k < Config.memWords) : (BitVec.ofNat 16 k).toNat = k :=
  Nat.mod_eq_of_lt h

/-- R52, R53: what a cell reads as after a write. -/
theorem Memory.read_write (m : Memory) (a b v : Word) :
    (m.write a v).read b = if a = b then v else m.read b := by
  unfold Memory.write Memory.read
  split
  · next hv => simp only [Memory.lookup_filter_ne, BitVec.toNat_inj, hv]
  · simp only [Memory.lookup_insertCell, BitVec.toNat_inj]

/-! ## The canonical form -/

/-- The canonical form of a memory with a first cell. -/
theorem Memory.wfFrom_cons {k lo : Nat} {v : Word} {m : Memory} :
    Memory.wfFrom lo ((k, v) :: m) = true ↔
      lo ≤ k ∧ k < Config.memWords ∧ v ≠ 0#16 ∧ m.wfFrom (k + 1) = true := by
  simp only [Memory.wfFrom, Bool.and_eq_true, decide_eq_true_eq, and_assoc]

/-- The canonical form from `lo` on lists no cell below `lo`. -/
theorem Memory.lookup_of_lt {m : Memory} {lo a : Nat} (h : m.wfFrom lo = true) (ha : a < lo) : m.lookup a = 0#16 := by
  induction m generalizing lo with
  | nil => rfl
  | cons cell m ih =>
    obtain ⟨hlo, -, -, hm⟩ := Memory.wfFrom_cons.mp h
    rw [Memory.lookup, if_neg (by omega)]
    exact ih hm (by omega)

/-- Two memories read alike at every address there is (R50). -/
def Memory.ReadAlike (m m' : Memory) : Prop := ∀ a, a < Config.memWords → m.lookup a = m'.lookup a

/-- R52: the addresses there are, are the words. -/
theorem Memory.readAlike_of_read {m m' : Memory} (h : ∀ addr, m.read addr = m'.read addr) : m.ReadAlike m' := by
  intro a ha
  have hread := h (BitVec.ofNat 16 a)
  rwa [Memory.read, Memory.read, toNat_ofNat_of_lt_memWords ha] at hread

/-- A canonical memory's first cell reads as no unlisted cell does, so a memory that reads alike begins no later. -/
theorem Memory.ReadAlike.le_head {m m' : Memory} {k lo lo' : Nat} {v : Word}
    (halike : Memory.ReadAlike ((k, v) :: m) m') (h : Memory.wfFrom lo ((k, v) :: m) = true)
    (h' : m'.wfFrom lo' = true) : lo' ≤ k := by
  obtain ⟨-, hk, hv, -⟩ := Memory.wfFrom_cons.mp h
  by_contra hlt
  have hread := halike k hk
  rw [Memory.lookup, if_pos rfl, Memory.lookup_of_lt h' (by omega)] at hread
  exact hv hread

/-- Memories with a first cell at one address that read alike: so do their first cells and, neither rest listing that
address, their rests. -/
theorem Memory.ReadAlike.of_cons {m m' : Memory} {k : Nat} {v v' : Word}
    (halike : Memory.ReadAlike ((k, v) :: m) ((k, v') :: m')) (hk : k < Config.memWords)
    (h : m.wfFrom (k + 1) = true) (h' : m'.wfFrom (k + 1) = true) : v = v' ∧ m.ReadAlike m' := by
  refine ⟨by simpa [Memory.lookup] using halike k hk, fun a ha => ?_⟩
  by_cases hak : k = a
  · rw [Memory.lookup_of_lt h (by omega), Memory.lookup_of_lt h' (by omega)]
  · simpa [Memory.lookup, hak] using halike a ha

/-- Canonical memories that read alike are the same list, cell by cell: neither begins before the other. -/
theorem Memory.ReadAlike.eq {m m' : Memory} {lo : Nat} (halike : m.ReadAlike m') (h : m.wfFrom lo = true)
    (h' : m'.wfFrom lo = true) : m = m' := by
  have hsymm : m'.ReadAlike m := fun a ha => (halike a ha).symm
  induction m generalizing m' lo with
  | nil =>
    cases m' with
    | nil => rfl
    | cons cell m' => exact absurd (hsymm.le_head (lo' := cell.1 + 1) h' rfl) (Nat.not_succ_le_self _)
  | cons cell m ih =>
    cases m' with
    | nil => exact absurd (halike.le_head (lo' := cell.1 + 1) h rfl) (Nat.not_succ_le_self _)
    | cons cell' m' =>
      obtain ⟨k, v⟩ := cell
      obtain ⟨k', v'⟩ := cell'
      obtain ⟨-, hk, hv, hm⟩ := Memory.wfFrom_cons.mp h
      obtain ⟨-, hk', hv', hm'⟩ := Memory.wfFrom_cons.mp h'
      have hle : k' ≤ k := halike.le_head h (Memory.wfFrom_cons.mpr ⟨le_rfl, hk', hv', hm'⟩)
      have hge : k ≤ k' := hsymm.le_head h' (Memory.wfFrom_cons.mpr ⟨le_rfl, hk, hv, hm⟩)
      obtain rfl := Nat.le_antisymm hle hge
      obtain ⟨rfl, hrest⟩ := halike.of_cons hk hm hm'
      rw [ih hrest hm hm' fun a ha => (hrest a ha).symm]

/-! ## The loader -/

/-- R62: what a cell reads as after words have been loaded from address `k` on, none past the end of memory: the word
loaded there, or what it was. -/
theorem read_loadWords {ws : List Word} {k : Nat} {m : Memory} (h : k + ws.length ≤ Config.memWords) (addr : Word) :
    (loadWords k ws m).read addr =
      if addr.toNat < k then m.read addr else (ws[addr.toNat - k]?).getD (m.read addr) := by
  induction ws generalizing k m with
  | nil => simp [loadWords]
  | cons w ws ih =>
    rw [List.length_cons] at h
    have hk : BitVec.ofNat 16 k = addr ↔ addr.toNat = k := by
      rw [← BitVec.toNat_inj, toNat_ofNat_of_lt_memWords (Nat.lt_of_lt_of_le (by omega) h), eq_comm]
    rw [loadWords, ih (by omega), Memory.read_write]
    simp only [hk]
    obtain hlt | heq | hgt := Nat.lt_trichotomy addr.toNat k
    · rw [if_pos (by omega), if_neg (by omega), if_pos hlt]
    · simp [heq]
    · obtain ⟨n, hn⟩ : ∃ n, addr.toNat - k = n + 1 := ⟨addr.toNat - k - 1, by omega⟩
      have hn' : addr.toNat - (k + 1) = n := by omega
      rw [if_neg (by omega), if_neg (by omega), if_neg (by omega), hn, hn', List.getElem?_cons_succ]

/-- R62: what a cell reads as after a program has been loaded from address 0. -/
theorem read_loadWords_zero {ws : List Word} {m : Memory} (h : ws.length ≤ Config.memWords) (addr : Word) :
    (loadWords 0 ws m).read addr = (ws[addr.toNat]?).getD (m.read addr) := by
  rw [read_loadWords (by omega), if_neg (Nat.not_lt_zero _), Nat.sub_zero]

/-- R63: outside INIT nothing is loaded (D22). -/
theorem hostLoad_ignored {ws : List Word} {s : State} (h : s.runState ≠ .init) : hostLoad ws s = ignored s := by
  unfold hostLoad
  split
  · next hinit => exact absurd hinit h
  all_goals rfl

/-- R62: in INIT a program that fits is loaded from address 0. -/
theorem hostLoad_init {ws : List Word} {s : State} (h : s.runState = .init) (hlen : ws.length ≤ Config.memWords) :
    hostLoad ws s = ⟨{ s with mem := loadWords 0 ws s.mem }, true⟩ := by
  simp only [hostLoad, h, hlen, if_true]

/-- R62: one that does not fit is refused (D24). -/
theorem hostLoad_tooLong {ws : List Word} {s : State} (h : s.runState = .init) (hlen : Config.memWords < ws.length) :
    hostLoad ws s = ignored s := by
  simp only [hostLoad, h, Nat.not_le.mpr hlen, if_false]

end Sys2Proof.Machine

namespace Sys2Proof.Safety

open Sys2Proof.Machine

/-- Settles O7: both byte orders as numbers, and the round trip by induction on the words. -/
theorem bigEndianBytesRoundTrip : Obligations.BigEndianBytesRoundTrip :=
  ⟨wordOfBytes_toNat, fun v => ⟨_, _, rfl, highByte_toNat v, lowByte_toNat v⟩, wordsOfBytes_bytesOfWords⟩

/-- Settles O8, by what a cell reads as after a write; a write touches no field but memory. -/
theorem memWriteSetsOneCell : Obligations.MemWriteSetsOneCell := by
  intro s addr v
  refine ⟨?_, fun other hne => ?_, rfl⟩
  · rw [State.memWrite_mem, Memory.read_write, if_pos rfl]
  · rw [State.memWrite_mem, Memory.read_write, if_neg hne.symm]

/-- Settles O9, by induction on the two lists at once. -/
theorem canonicalMemoriesReadingAlikeAreEqual : Obligations.CanonicalMemoriesReadingAlikeAreEqual :=
  fun _ _ h h' hread => (Memory.readAlike_of_read hread).eq h h'

/-- Settles O55, by what a cell reads as after loading from address 0; the two refusals are `hostLoad`'s own. -/
theorem loaderFillsMemoryFromZero : Obligations.LoaderFillsMemoryFromZero := by
  intro ws s
  refine ⟨fun hinit hlen => ⟨_, hostLoad_init hinit hlen, fun k hk => ?_, fun addr haddr => ?_⟩, hostLoad_tooLong,
    hostLoad_ignored⟩
  · rw [read_loadWords_zero hlen, toNat_ofNat_of_lt_memWords (Nat.lt_of_lt_of_le hk hlen),
      List.getElem?_eq_getElem hk, Option.getD_some]
  · rw [read_loadWords_zero hlen, List.getElem?_eq_none haddr, Option.getD_none]

end Sys2Proof.Safety
end

section
/-! PROOFS. What a slot stores to memory, by the three kinds of instruction: where, and which word. -/

namespace Sys2Proof.Machine

open Sys2Proof.Safety

/-- R148: writing O leaves memory alone. -/
@[simp] theorem writeO_mem (newO : Option Word) (s : State) : (writeO newO s).mem = s.mem := by
  cases newO <;> rfl

/-- R137: what a cell reads as after a store through a handle. -/
theorem store_read (h : Handle) (v : Word) (s : State) (addr : Word) :
    (store h v s).mem.read addr = if h = .mem addr then v else s.mem.read addr := by
  rw [store_mem]
  cases h <;> simp [Memory.read_write]

/-- R148: what a cell reads as after an arithmetic or logic instruction in commit mode. -/
theorem alu_commit_read (f : Word → Word → AluOut) (base : Nat) (a b : Operand) (s : State) (addr : Word) :
    (alu f base a b true s).mem.read addr =
      if placeA true a s = .mem addr then (f (valueA true a s) (valueB true a b s)).res else s.mem.read addr := by
  rw [alu_commit, writeO_mem, store_read]

/-- R180: a conditional leaves memory alone, in either mode. -/
theorem cond_mem (p : Word → Word → Bool) (a b : Operand) (c : Bool) (s : State) :
    (cond p a b c s).state.mem = s.mem := by
  rw [cond_eq]

/-- R200: what a cell reads as after a call in commit mode: the one below SP as the operand left it holds the return
address. -/
theorem bodyJsr_commit_read (b : Operand) (s : State) (addr : Word) :
    (bodyJsr b true s).mem.read addr =
      if spAfter true b s.sp - 1#16 = addr then pcPast s.pc b.owns else s.mem.read addr := by
  simp only [bodyJsr, pushPcAndJump, if_true, State.memWrite_mem, State.charge_mem, State.charge_sp, State.charge_pc,
    resolve_state, Memory.read_write]

/-- R201: a skipped call leaves memory alone. -/
theorem bodyJsr_noncommit_mem (b : Operand) (s : State) : (bodyJsr b false s).mem = s.mem := by
  simp [bodyJsr, resolve_state]

/-- R149, R53: an arithmetic or logic instruction changes a cell only in commit mode, and only the one its operand A
resolves to. -/
theorem alu_changes_mem {f : Word → Word → AluOut} {base : Nat} {a b : Operand} {c : Bool} {s : State} {addr : Word}
    (h : (alu f base a b c s).mem.read addr ≠ s.mem.read addr) : c = true ∧ placeA true a s = .mem addr := by
  cases c with
  | false => rw [alu_noncommit] at h; exact absurd rfl h
  | true =>
    rw [alu_commit_read] at h
    exact ⟨rfl, (ite_ne_right_iff.mp h).1⟩

/-- R200, R201: a call changes a cell only in commit mode, and only the one it pushes to. -/
theorem bodyJsr_changes_mem {b : Operand} {c : Bool} {s : State} {addr : Word}
    (h : (bodyJsr b c s).mem.read addr ≠ s.mem.read addr) : c = true ∧ spAfter true b s.sp - 1#16 = addr := by
  cases c with
  | false => rw [bodyJsr_noncommit_mem] at h; exact absurd rfl h
  | true =>
    rw [bodyJsr_commit_read] at h
    exact ⟨rfl, (ite_ne_right_iff.mp h).1⟩

/-! ## The word an arithmetic or logic instruction stores -/

/-- R151: the sum wraps. -/
theorem fAdd_res (va vb : Word) : (fAdd va vb).res = va + vb := by
  simp [fAdd, BitVec.ofNat_add]

/-- R153: the product wraps. -/
theorem fMul_res (va vb : Word) : (fMul va vb).res = va * vb := by
  simp [fMul, BitVec.ofNat_mul]

/-- R155: the quotient, 0 for divisor zero. -/
theorem fDiv_res (va vb : Word) : (fDiv va vb).res = if vb = 0#16 then 0#16 else va / vb := by
  unfold fDiv
  split
  · rfl
  · rw [← BitVec.toNat_udiv, BitVec.ofNat_toNat, BitVec.setWidth_eq]

/-- R156: the remainder, 0 for divisor zero. -/
theorem fMod_res (va vb : Word) : (fMod va vb).res = if vb = 0#16 then 0#16 else va % vb := by
  unfold fMod
  split
  · rfl
  · rw [← BitVec.toNat_umod, BitVec.ofNat_toNat, BitVec.setWidth_eq]

/-- R157: the low half of the 32-bit window is the 16-bit shift (D15). -/
theorem fShl_res (va vb : Word) : (fShl va vb).res = va <<< vb.toNat := by
  apply BitVec.eq_of_toNat_eq
  rw [BitVec.toNat_shiftLeft]
  simp only [fShl, BitVec.toNat_ofNat]
  exact Nat.mod_mod_of_dvd _ (by decide)

/-- R158: the high half of the 32-bit window is the 16-bit shift (D15). -/
theorem fShr_res (va vb : Word) : (fShr va vb).res = va >>> vb.toNat := by
  apply BitVec.eq_of_toNat_eq
  have hwindow : va.toNat <<< 16 >>> vb.toNat >>> 16 = va.toNat >>> vb.toNat := by
    rw [← Nat.shiftRight_add, Nat.add_comm, Nat.shiftRight_add, Nat.shiftLeft_shiftRight]
  have hlt : va.toNat >>> vb.toNat < 2 ^ 16 := Nat.lt_of_le_of_lt (Nat.shiftRight_le _ _) va.isLt
  rw [BitVec.toNat_ushiftRight]
  simp only [fShr, BitVec.toNat_ofNat, hwindow, Nat.mod_eq_of_lt hlt]

/-- R150 to R161: an instruction that stores a result is an arithmetic or logic one whose `F_op` gives that result. -/
theorem exec_alu_of_resultOf {i : Instr} {s t : State} {a : Operand} {v : Word}
    (h : exec i s = .next t) (hdest : destination i = some a) (hres : resultOf i s = some v) :
    ∃ (f : Word → Word → AluOut) (base : Nat) (b : Operand), t = (alu f base a b s.commit s).endSlot false ∧
      (f (valueA true a s) (valueB true a b s)).res = v := by
  cases i <;> cases hdest <;> cases hres <;> cases h
  case set b => exact ⟨fSet, baseMove, b, rfl, rfl⟩
  case add b => exact ⟨fAdd, baseArith, b, rfl, fAdd_res _ _⟩
  case sub b => exact ⟨fSub, baseArith, b, rfl, rfl⟩
  case mul b => exact ⟨fMul, baseArith, b, rfl, fMul_res _ _⟩
  case div b => exact ⟨fDiv, baseDivide, b, rfl, fDiv_res _ _⟩
  case mod b => exact ⟨fMod, baseDivide, b, rfl, fMod_res _ _⟩
  case shl b => exact ⟨fShl, baseArith, b, rfl, fShl_res _ _⟩
  case shr b => exact ⟨fShr, baseArith, b, rfl, fShr_res _ _⟩
  case and b => exact ⟨fAnd, baseMove, b, rfl, rfl⟩
  case bor b => exact ⟨fBor, baseMove, b, rfl, rfl⟩
  case xor b => exact ⟨fXor, baseMove, b, rfl, rfl⟩

end Sys2Proof.Machine

namespace Sys2Proof.Safety

open Sys2Proof.Machine

/-- Settles O10: what the cell at PC reads as after the slot is what the slot stored there; the core still runs, so the
next step decodes that word. -/
theorem storeIsSeenByNextFetch : Obligations.StoreIsSeenByNextFetch := by
  intro i s t hskip h
  refine ⟨fun a v hdest hres hplace => ?_, fun b hi hpush => ?_, fun j hrun hdecode => ?_⟩
  · obtain ⟨f, base, b, ht, hv⟩ := exec_alu_of_resultOf h hdest hres
    rw [State.commit_of_skip_false hskip] at ht
    calc t.fetched = (alu f base a b true s).mem.read t.pc := by rw [State.fetched, ht, State.endSlot_mem]
      _ = v := by rw [alu_commit_read, if_pos hplace, hv]
  · subst hi
    have ht : t = (bodyJsr b true s).endSlot false := by
      rw [← State.commit_of_skip_false hskip]; cases h; rfl
    calc t.fetched = (bodyJsr b true s).mem.read t.pc := by rw [State.fetched, ht, State.endSlot_mem]
      _ = pcPast s.pc b.owns := by rw [bodyJsr_commit_read, if_pos hpush]
  · obtain ⟨-, hkept⟩ := exec_keeps h
    rw [step_running (hkept.trans hrun), hdecode]
    rfl

/-- Settles O24, by the kinds of instruction: only an arithmetic or logic one and a call can change a cell. -/
theorem memoryChangesOnlyWhereStored : Obligations.MemoryChangesOnlyWhereStored := by
  intro i s t addr h hne
  cases exec_slotRun h with
  | alu f base a b hdest _ =>
    obtain ⟨hcommit, hplace⟩ := alu_changes_mem hne
    exact ⟨State.commit_eq_true.mp hcommit, .inl ⟨a, hdest, hplace⟩⟩
  | cond p a b _ => exact absurd (congrArg (Memory.read · addr) (cond_mem p a b s.commit s)) hne
  | jsr b hi =>
    obtain ⟨hcommit, hpush⟩ := bodyJsr_changes_mem hne
    exact ⟨State.commit_eq_true.mp hcommit, .inr ⟨b, hi, hpush.symm⟩⟩

end Sys2Proof.Safety
end

section
/-! PROOFS. Encoding: the fields of a word as numbers, one equation of the decoder for each format (R73), and the masks
of R80 as conditions on the fields. Encoder and decoder are inverse because joining and splitting a word are, and
because every primary opcode but 0 is that of exactly one basic instruction. -/

namespace Sys2Proof

/-! ## Fields of a word -/

/-- R71: `op = w mod 2^4`. -/
theorem opField_toNat (w : Word) : (opField w).toNat = w.toNat % 16 := by
  simp [opField, BitVec.extractLsb'_toNat]

/-- R71: `a = (w div 2^4) mod 2^6`. -/
theorem aField_toNat (w : Word) : (aField w).toNat = w.toNat / 2 ^ 4 % 64 := by
  simp [aField, BitVec.extractLsb'_toNat, Nat.shiftRight_eq_div_pow]

/-- R71: `b = (w div 2^10) mod 2^6`. -/
theorem bField_toNat (w : Word) : (bField w).toNat = w.toNat / 2 ^ 10 % 64 := by
  simp [bField, BitVec.extractLsb'_toNat, Nat.shiftRight_eq_div_pow]

/-- R71: the fields do not overlap, so joining them adds them. -/
theorem joinWord_eq_ofNat (b a : BitVec 6) (op : BitVec 4) :
    joinWord b a op = BitVec.ofNat 16 (b.toNat * 2 ^ 10 + a.toNat * 2 ^ 4 + op.toNat) := by
  have hop := opField_toNat (joinWord b a op)
  have ha := aField_toNat (joinWord b a op)
  have hb := bField_toNat (joinWord b a op)
  rw [opField_joinWord] at hop
  rw [aField_joinWord] at ha
  rw [bField_joinWord] at hb
  apply BitVec.eq_of_toNat_eq
  rw [BitVec.toNat_ofNat]
  omega

/-- R71: every word is the join of its fields. -/
theorem joinWord_fields (w : Word) : joinWord (bField w) (aField w) (opField w) = w := by
  apply BitVec.eq_of_toNat_eq
  rw [joinWord_eq_ofNat, BitVec.toNat_ofNat, opField_toNat, aField_toNat, bField_toNat]
  omega

/-! ## The instruction word -/

/-- R77: primary opcode 0, and no other, is the non-basic format. -/
theorem basicOf_eq_none_iff (op : BitVec 4) : basicOf op.toNat = none ↔ op = 0#4 := by
  rw [← Option.isNone_iff_eq_none]
  revert op; decide

/-- R77, R87: the basic instruction of a primary opcode is encoded with it, and is well formed when its operands are
(R81). -/
theorem encode_wellFormed_of_basicOf {op : BitVec 4} {mk : Operand → Operand → Instr} (h : basicOf op.toNat = some mk)
    (a b : Operand) :
    encode (mk a b) = joinWord b.code a.code op ∧ (mk a b).wellFormed = (a.wellFormed && b.wellFormed) := by
  unfold basicOf at h
  split at h
  case h_16 => cases h
  all_goals
    next hnat =>
      have hop := congrArg (BitVec.ofNat 4) hnat
      rw [BitVec.ofNat_toNat, BitVec.setWidth_eq] at hop
      subst hop
      cases h
      exact ⟨rfl, rfl⟩

/-- R82: decoding a word of the basic format. -/
theorem decode_basic {w : Word} {mk : Operand → Operand → Instr} (h : basicOf (opField w).toNat = some mk) :
    decode w = .ok (mk (operandOfCode (aField w)) (operandOfCode (bField w))) := by
  simp only [decode, h]

/-- R79, R82: decoding a word of the non-basic format with JSR's extended opcode. -/
theorem decode_jsr {w : Word} (hop : opField w = 0#4) (ha : aField w = jsrExt) :
    decode w = .ok (.jsr (operandOfCode (bField w))) := by
  simp only [decode, (basicOf_eq_none_iff _).mpr hop, if_pos ha]

/-- R80: decoding a word of the non-basic format with any other extended opcode. -/
theorem decode_unrecognized {w : Word} (hop : opField w = 0#4) (ha : aField w ≠ jsrExt) :
    decode w = .error (.unrecognized w) := by
  simp only [decode, (basicOf_eq_none_iff _).mpr hop, if_neg ha]

/-- R81: every other word decodes. -/
theorem exists_decode {w : Word} (h : ¬(opField w = 0#4 ∧ aField w ≠ jsrExt)) : ∃ i, decode w = .ok i := by
  cases hbasic : basicOf (opField w).toNat with
  | some mk => exact ⟨_, decode_basic hbasic⟩
  | none =>
    have hop := (basicOf_eq_none_iff _).mp hbasic
    exact ⟨_, decode_jsr hop (Classical.not_not.mp fun ha => h ⟨hop, ha⟩)⟩

/-- R82, R87: an encoded basic instruction is read back. -/
theorem decode_joinWord_basic {op : BitVec 4} {mk : Operand → Operand → Instr} {a b : Operand}
    (h : basicOf op.toNat = some mk) (hwf : (a.wellFormed && b.wellFormed) = true) :
    decode (joinWord b.code a.code op) = .ok (mk a b) := by
  obtain ⟨ha, hb⟩ := Bool.and_eq_true_iff.mp hwf
  rw [decode_basic (by rwa [opField_joinWord]), aField_joinWord, bField_joinWord, operandOfCode_code a ha,
    operandOfCode_code b hb]

/-- R79, R87: an encoded JSR is read back. -/
theorem decode_joinWord_jsr {b : Operand} (hwf : b.wellFormed = true) :
    decode (joinWord b.code jsrExt 0#4) = .ok (.jsr b) := by
  rw [decode_jsr (opField_joinWord ..) (aField_joinWord ..), bField_joinWord, operandOfCode_code b hwf]

/-- R82, R87: an encoded instruction is read back. -/
theorem decode_encode {i : Instr} (hwf : i.wellFormed = true) : decode (encode i) = .ok i := by
  cases i with
  | jsr b => exact decode_joinWord_jsr hwf
  | set a b | add a b | sub a b | mul a b | div a b | mod a b | shl a b | shr a b | and a b | bor a b | xor a b
  | ife a b | ifn a b | ifg a b | ifb a b => exact decode_joinWord_basic rfl hwf

/-- R81, R87: what a word decodes to is well formed and encoded as that word. -/
theorem encode_of_decode {w : Word} {i : Instr} (h : decode w = .ok i) : i.wellFormed = true ∧ encode i = w := by
  obtain ⟨hacode, hawf⟩ := code_operandOfCode (aField w)
  obtain ⟨hbcode, hbwf⟩ := code_operandOfCode (bField w)
  cases hbasic : basicOf (opField w).toNat with
  | some mk =>
    rw [decode_basic hbasic] at h
    cases h
    obtain ⟨henc, hwf⟩ := encode_wellFormed_of_basicOf hbasic (operandOfCode (aField w)) (operandOfCode (bField w))
    exact ⟨by rw [hwf, hawf, hbwf, Bool.and_self], by rw [henc, hacode, hbcode, joinWord_fields]⟩
  | none =>
    have hop := (basicOf_eq_none_iff _).mp hbasic
    by_cases ha : aField w = jsrExt
    · rw [decode_jsr hop ha] at h
      cases h
      exact ⟨hbwf, by rw [encode, hbcode, ← ha, ← hop, joinWord_fields]⟩
    · rw [decode_unrecognized hop ha] at h
      cases h

/-! ## Slots -/

/-- R75: a word that decodes and as many words as it owns are the slot at the head of any words after them. -/
theorem decodeSlot_cons_append {w : Word} {i : Instr} {ws : List Word} (h : decode w = .ok i)
    (hlen : ws.length = i.trailingWords) (rest : List Word) :
    decodeSlot (w :: (ws ++ rest)) = .ok (⟨i, ws⟩, rest) := by
  have hle : i.trailingWords ≤ (ws ++ rest).length := by rw [List.length_append]; omega
  simp only [decodeSlot, h, if_pos hle, List.take_left' hlen, List.drop_left' hlen]

end Sys2Proof

namespace Sys2Proof.Safety

/-! ## The masks of R80 -/

/-- R80: the mask 0x000F leaves the primary opcode. -/
theorem and_opMask (w : Word) : w &&& 0x000F#16 = (opField w).setWidth 16 := by
  apply BitVec.eq_of_toNat_eq
  have hmod : w.toNat &&& 15 = w.toNat % 16 := Nat.and_two_pow_sub_one_eq_mod _ 4
  rw [BitVec.toNat_and, BitVec.toNat_setWidth, opField_toNat]
  simp only [BitVec.toNat_ofNat, Nat.reducePow, Nat.reduceMod, hmod]
  omega

/-- R80: the mask 0x03F0 leaves the extended opcode in its place. -/
theorem and_extMask (w : Word) : w &&& 0x03F0#16 = (aField w).setWidth 16 <<< 4 := by
  have hmask : ∀ i < 16, (0x03F0#16).getLsbD i = (decide (4 ≤ i) && decide (i < 10)) := by decide
  apply BitVec.eq_of_getLsbD_eq
  intro i hi
  simp only [aField, BitVec.getLsbD_and, hmask i hi, BitVec.getLsbD_shiftLeft, BitVec.getLsbD_setWidth,
    BitVec.getLsbD_extractLsb']
  by_cases h4 : 4 ≤ i
  · have hback : 4 + (i - 4) = i := by omega
    have hwidth : i - 4 < 6 ↔ i < 10 := by omega
    have hsub : i - 4 < 16 := by omega
    simp [h4, hi, hback, hwidth, hsub, Bool.and_comm]
  · simp [h4, Nat.lt_of_not_le h4]

/-- R80: the spec's masks say that the primary opcode is 0 and the extended opcode is not JSR's. -/
theorem unrecognized_iff (w : Word) : Unrecognized w ↔ opField w = 0#4 ∧ aField w ≠ jsrExt := by
  have hop : ∀ op : BitVec 4, op.setWidth 16 = 0#16 ↔ op = 0#4 := by decide
  have hext : ∀ a : BitVec 6, a.setWidth 16 <<< 4 = 0x0010#16 ↔ a = jsrExt := by decide
  rw [Unrecognized, and_opMask, and_extMask, hop, ne_eq, hext]

/-! ## The statements -/

/-- Settles O1, by the instructions: the fifteen basic ones are read back alike, JSR by its extended opcode. -/
theorem decodeInvertsEncode : Obligations.DecodeInvertsEncode := fun _ => decode_encode

/-- Settles O2, by the format of the word. -/
theorem encodeInvertsDecode : Obligations.EncodeInvertsDecode := fun _ _ => encode_of_decode

/-- Settles O3, by the arithmetic of the fields; the two directions of joining rest on it. -/
theorem wordSplitsIntoFieldsAndJoins : Obligations.WordSplitsIntoFieldsAndJoins := fun w =>
  ⟨opField_toNat w, aField_toNat w, bField_toNat w, joinWord_fields w, joinWord_eq_ofNat⟩

/-- Settles O4, by the two fields the masks look at. -/
theorem everyWordIsClassified : Obligations.EveryWordIsClassified := by
  intro w
  rw [unrecognized_iff]
  by_cases h : opField w = 0#4 ∧ aField w ≠ jsrExt
  · obtain ⟨hop, ha⟩ := h
    exact .inl ⟨⟨hop, ha⟩, decode_unrecognized hop ha⟩
  · obtain ⟨i, hi⟩ := exists_decode h
    exact .inr ⟨h, i, hi, (encode_of_decode hi).1⟩

/-- Settles O5, by O1's round trip for the instruction word; the slot's length says where its trailing words end. -/
theorem slotDecodeInvertsSlotEncode : Obligations.SlotDecodeInvertsSlotEncode := by
  intro x rest hwf
  obtain ⟨hinstr, hlen⟩ := Bool.and_eq_true_iff.mp hwf
  exact decodeSlot_cons_append (decode_encode hinstr) (eq_of_beq hlen) rest

/-- Settles O6, by running the decoder on the eight words. -/
theorem listedWordsDecode : Obligations.ListedWordsDecode := by
  unfold Obligations.ListedWordsDecode
  decide

end Sys2Proof.Safety
end

section
/-! PROOFS. Execute and dispatch. A skipped slot only passes by (`PassedBy`), and no slot reads the cycle counter; so a
chain that comes back to an address it has skipped at goes round for ever, and one that ends does so within one slot per
address. The host's `exec(w)` is the recursive form without the first fetch. -/

namespace Sys2Proof.Safety

open Sys2Proof.Machine

/-! ## A skipped slot passes by -/

/-- Passing by nothing. -/
theorem PassedBy.refl (s : State) : PassedBy 0 0 s s :=
  ⟨rfl, rfl, rfl, rfl, rfl, (BitVec.add_zero s.pc).symm, rfl⟩

/-- Words and costs of slots passed by one after the other add up. -/
theorem PassedBy.trans {m n c d : Nat} {s t u : State} (h : PassedBy m c s t) (h' : PassedBy n d t u) :
    PassedBy (m + n) (c + d) s u where
  regs := h'.regs.trans h.regs
  mem := h'.mem.trans h.mem
  sp := h'.sp.trans h.sp
  o := h'.o.trans h.o
  runState := h'.runState.trans h.runState
  pc := by rw [h'.pc, h.pc, pcPast_pcPast]
  cycles := by rw [h'.cycles, h.cycles, Nat.add_assoc]

/-- R101: a fetch passes by the word it reads and charges nothing. -/
theorem PassedBy.advance (s : State) : PassedBy 1 0 s s.advance := ⟨rfl, rfl, rfl, rfl, rfl, rfl, rfl⟩

/-- Passing by says nothing of `SKIP`. -/
theorem PassedBy.endSlot {n c : Nat} {s t : State} (h : PassedBy n c s t) (k : Bool) : PassedBy n c s (t.endSlot k) :=
  ⟨h.regs, h.mem, h.sp, h.o, h.runState, h.pc, h.cycles⟩

/-- Back at the same PC with the same `SKIP`, only cycles have passed. -/
theorem PassedBy.eq_charge {n c : Nat} {s t : State} (h : PassedBy n c s t) (hpc : t.pc = s.pc)
    (hskip : t.skip = s.skip) : t = s.charge c := by
  calc t = ⟨t.regs, t.pc, t.sp, t.o, t.mem, t.runState, t.cycles, t.skip⟩ := rfl
    _ = s.charge c := by rw [h.regs, hpc, h.sp, h.o, h.mem, h.runState, h.cycles, hskip]; rfl

end Sys2Proof.Safety

namespace Sys2Proof.Machine

open Sys2Proof.Safety

/-- R136: in non-commit mode no operand moves SP (D10). -/
@[simp] theorem spAfter_noncommit (x : Operand) (sp : Word) : spAfter false x sp = sp := by
  cases x <;> rfl

/-- R149: an arithmetic or logic instruction in non-commit mode passes by. -/
theorem alu_passedBy (f : Word → Word → AluOut) (base : Nat) (a b : Operand) (s : State) :
    PassedBy (a.owns + b.owns) (modeCost a + modeCost b + base) s (alu f base a b false s) := by
  rw [alu_noncommit]
  exact ⟨rfl, rfl, rfl, rfl, rfl, pcPast_pcPast _ _ _, by simp only [Nat.add_assoc]⟩

/-- R185: a conditional in non-commit mode passes by. -/
theorem cond_passedBy (p : Word → Word → Bool) (a b : Operand) (s : State) :
    PassedBy (a.owns + b.owns) (modeCost a + modeCost b + condCost (cond p a b false s).holds) s
      (cond p a b false s).state := by
  rw [cond_eq]
  exact ⟨rfl, rfl, by simp, rfl, rfl, pcPast_pcPast _ _ _, by simp only [Nat.add_assoc]⟩

/-- R201: a call in non-commit mode passes by. -/
theorem bodyJsr_passedBy (b : Operand) (s : State) :
    PassedBy b.owns (modeCost b + baseCall) s (bodyJsr b false s) := by
  simp only [bodyJsr, resolve_state, spAfter_noncommit, Bool.false_eq_true, if_false]
  exact ⟨rfl, rfl, rfl, rfl, rfl, rfl, Nat.add_assoc _ _ _⟩

/-- R105: any instruction in a skipped slot passes by. -/
theorem exec_passedBy {i : Instr} {s t : State} (hskip : s.skip = true) (h : exec i s = .next t) :
    ∃ words cost, PassedBy words cost s t := by
  have hcommit : s.commit = false := State.commit_of_skip_true hskip
  cases exec_slotRun h with
  | alu f base a b _ _ => rw [hcommit]; exact ⟨_, _, (alu_passedBy f base a b s).endSlot _⟩
  | cond p a b _ => rw [hcommit]; exact ⟨_, _, (cond_passedBy p a b s).endSlot _⟩
  | jsr b _ => rw [hcommit]; exact ⟨_, _, (bodyJsr_passedBy b s).endSlot _⟩

/-- R105, R185: a skipped slot after which the chain goes on was passed by. -/
theorem step_passedBy {s t : State} (hrun : s.runState = .running) (hskip : s.skip = true) (h : step s = .next t)
    (hgoes : t.skip = true) : ∃ words cost, PassedBy words cost s t := by
  obtain ⟨hnot, -⟩ | ⟨-, e, -, rfl⟩ | ⟨-, i, -, hexec⟩ := step_cases h
  · exact absurd hrun hnot
  · cases hgoes
  · obtain ⟨words, cost, hpassed⟩ := exec_passedBy (s := s.advance) hskip hexec
    exact ⟨_, _, (PassedBy.advance s).trans hpassed⟩

/-! ## No slot reads the cycle counter (R31) -/

/-- Charges come in any order. -/
theorem State.charge_right_comm (s : State) (m n : Nat) : (s.charge m).charge n = (s.charge n).charge m := by
  simp only [State.charge, Nat.add_right_comm]

/-- R121: resolution does not read the cycle counter. -/
theorem resolve_charge (c : Bool) (x : Operand) (s : State) (n : Nat) :
    resolve c x (s.charge n) =
      ⟨(resolve c x s).value, (resolve c x s).handle, (resolve c x s).state.charge n⟩ := by
  unfold resolve
  rw [State.charge_right_comm]
  cases x <;> cases c <;> rfl

/-- R137: nor does a store. -/
theorem store_charge (h : Handle) (v : Word) (s : State) (n : Nat) :
    store h v (s.charge n) = (store h v s).charge n := by
  cases h <;> rfl

/-- R148: nor does the write of O. -/
theorem writeO_charge (newO : Option Word) (s : State) (n : Nat) :
    writeO newO (s.charge n) = (writeO newO s).charge n := by
  cases newO <;> rfl

/-- R148: nor does an arithmetic or logic body. -/
theorem alu_charge (f : Word → Word → AluOut) (base : Nat) (a b : Operand) (c : Bool) (s : State) (n : Nat) :
    alu f base a b c (s.charge n) = (alu f base a b c s).charge n := by
  simp only [alu, resolve_charge, State.charge_right_comm _ n base, store_charge, writeO_charge]
  cases c <;> rfl

/-- R180: nor does a conditional. -/
theorem cond_charge (p : Word → Word → Bool) (a b : Operand) (c : Bool) (s : State) (n : Nat) :
    cond p a b c (s.charge n) = ⟨(cond p a b c s).holds, (cond p a b c s).state.charge n⟩ := by
  simp only [cond, resolve_charge, State.charge_right_comm _ n]

/-- R200: nor does a call. -/
theorem bodyJsr_charge (b : Operand) (c : Bool) (s : State) (n : Nat) :
    bodyJsr b c (s.charge n) = (bodyJsr b c s).charge n := by
  simp only [bodyJsr, resolve_charge, State.charge_right_comm _ n baseCall]
  cases c <;> rfl

/-- R31, R251: cycles charged before a slot are only added to those after it. -/
theorem exec_charge {i : Instr} {s t : State} (h : exec i s = .next t) (n : Nat) :
    exec i (s.charge n) = .next (t.charge n) := by
  cases i <;> cases h
  case jsr b => exact congrArg (fun u => Host.Outcome.next (State.endSlot u false)) (bodyJsr_charge b s.commit s n)
  case ife | ifn | ifg | ifb =>
    exact congrArg (fun out => Host.Outcome.next (State.endSlot out.state (!out.holds)))
      (cond_charge _ _ _ s.commit s n)
  all_goals exact congrArg (fun u => Host.Outcome.next (State.endSlot u false)) (alu_charge _ _ _ _ s.commit s n)

/-- R103: `step` when the word at PC decodes. -/
theorem step_of_decode {s : State} {i : Instr} (hrun : s.runState = .running) (hd : decode s.fetched = .ok i) :
    step s = exec i s.advance := by
  rw [step_running hrun, hd]

/-- R210: `step` when it does not. -/
theorem step_of_decode_error {s : State} {e : DecodeError} (hrun : s.runState = .running)
    (hd : decode s.fetched = .error e) : step s = .next s.advance.decodeError := by
  rw [step_running hrun, hd]

/-- R31, R251: cycles charged before a step are only added to those after it. -/
theorem step_charge {s t : State} (h : step s = .next t) (n : Nat) : step (s.charge n) = .next (t.charge n) := by
  obtain ⟨hnot, rfl⟩ | ⟨hrun, e, hd, rfl⟩ | ⟨hrun, i, hd, hexec⟩ := step_cases h
  · exact step_idle hnot
  · exact step_of_decode_error (s := s.charge n) hrun hd
  · rw [step_of_decode (s := s.charge n) hrun hd]
    exact exec_charge hexec n

/-! ## Runs of the core -/

/-- R224: a step always has a next state. -/
theorem exists_next (s : State) : ∃ t, step s = .next t := by
  by_cases hrun : s.runState = .running
  · exact exists_step_next hrun
  · exact ⟨s, step_idle hrun⟩

/-- A run in two parts. -/
theorem run_add {m n : Nat} {s t : State} (h : Host.Core.run core m s = .next t) :
    Host.Core.run core (m + n) s = Host.Core.run core n t := by
  induction m generalizing s with
  | zero =>
    cases h
    rw [Nat.zero_add]
  | succ m ih =>
    obtain ⟨u, hstep⟩ := exists_next s
    rw [run_succ_of_step hstep] at h
    rw [Nat.succ_add, run_succ_of_step hstep]
    exact ih h

/-- R31, R251: cycles charged before a run are only added to those after it. -/
theorem run_charge {k : Nat} {s t : State} (h : Host.Core.run core k s = .next t) (n : Nat) :
    Host.Core.run core k (s.charge n) = .next (t.charge n) := by
  induction k generalizing s with
  | zero => cases h; rfl
  | succ k ih =>
    obtain ⟨u, hstep⟩ := exists_next s
    rw [run_succ_of_step hstep] at h
    rw [run_succ_of_step (step_charge hstep n)]
    exact ih h

/-! ## A chain ends within one slot per address, or never (R189) -/

/-- R185: `SKIP` is set in a state and stays set for `k` steps. -/
def Skips (k : Nat) (s : State) : Prop := ∀ j ≤ k, ∃ u, Host.Core.run core j s = .next u ∧ u.skip = true

/-- `SKIP` set over no steps is `SKIP` set. -/
theorem Skips.skip {k : Nat} {s : State} (h : Skips k s) : s.skip = true := by
  obtain ⟨u, hu, hskip⟩ := h 0 k.zero_le
  cases hu
  exact hskip

/-- What is left of a run along which `SKIP` is set. -/
theorem Skips.drop {m n : Nat} {s t : State} (h : Skips (m + n) s) (hrun : Host.Core.run core m s = .next t) :
    Skips n t := by
  intro j hj
  rw [← run_add hrun]
  exact h (m + j) (Nat.add_le_add_left hj m)

/-- A run along which `SKIP` is set only passes by. -/
theorem Skips.passedBy {k : Nat} {s t : State} (hrunning : s.runState = .running) (h : Skips k s)
    (hrun : Host.Core.run core k s = .next t) : ∃ words cost, PassedBy words cost s t := by
  induction k generalizing s with
  | zero => cases hrun; exact ⟨0, 0, .refl _⟩
  | succ k ih =>
    obtain ⟨u, hstep⟩ := exists_next s
    have hu : Skips k u := Skips.drop (m := 1) (Nat.add_comm k 1 ▸ h) (run_succ_of_step hstep)
    rw [run_succ_of_step hstep] at hrun
    obtain ⟨m, c, hfirst⟩ := step_passedBy hrunning h.skip hstep hu.skip
    obtain ⟨n, d, hrest⟩ := ih (hfirst.runState.trans hrunning) hu hrun
    exact ⟨_, _, hfirst.trans hrest⟩

/-- R189: a chain that is back at the address it was taken up at goes round once more, so it does not end. -/
theorem Skips.skip_of_return {j n : Nat} {s v t : State} (hrunning : s.runState = .running)
    (h : Skips (j + n) s) (hj : 0 < j) (hv : Host.Core.run core j s = .next v) (hpc : v.pc = s.pc)
    (ht : Host.Core.run core (j + n + 1) s = .next t) : t.skip = true := by
  have hround : Skips j s := fun i hi => h i (by omega)
  obtain ⟨words, cost, hpassed⟩ := hround.passedBy hrunning hv
  have hsame : v = s.charge cost := hpassed.eq_charge hpc ((h.drop hv).skip.trans h.skip.symm)
  obtain ⟨u, hu, hskip⟩ := h (n + 1) (by omega)
  rw [Nat.add_assoc, run_add hv, hsame, run_charge hu] at ht
  cases ht
  exact hskip

/-- R189: a chain that is at one address twice does not end. -/
theorem Skips.skip_of_repeat {i j k : Nat} {s v w t : State} (hrunning : s.runState = .running) (h : Skips k s)
    (hij : i < j) (hjk : j ≤ k) (hv : Host.Core.run core i s = .next v) (hw : Host.Core.run core j s = .next w)
    (hpc : w.pc = v.pc) (ht : Host.Core.run core (k + 1) s = .next t) : t.skip = true := by
  obtain ⟨d, rfl⟩ := Nat.exists_eq_add_of_le (Nat.le_of_lt hij)
  obtain ⟨n, rfl⟩ := Nat.exists_eq_add_of_le hjk
  have hfirst : Skips i s := fun l hl => h l (by omega)
  obtain ⟨words, cost, hpassed⟩ := hfirst.passedBy hrunning hv
  rw [Nat.add_assoc] at h
  rw [run_add hv] at hw
  rw [Nat.add_assoc, Nat.add_assoc, run_add hv, ← Nat.add_assoc] at ht
  exact (h.drop hv).skip_of_return (hpassed.runState.trans hrunning) (by omega) hw hpc ht

/-- R189: a chain that ends has no more skipped slots than there are addresses. -/
theorem Skips.lt_memWords {k : Nat} {s t : State} (hrunning : s.runState = .running) (h : Skips k s)
    (ht : Host.Core.run core (k + 1) s = .next t) (hend : t.skip = false) : k < Config.memWords := by
  by_contra hk
  have hat : ∀ j : Fin (Config.memWords + 1), ∃ v, Host.Core.run core j s = .next v ∧ v.skip = true :=
    fun j => h j (by omega)
  choose v hv _ using hat
  obtain ⟨i, j, hne, hpc⟩ := Fintype.exists_ne_map_eq_of_card_lt (fun j => (v j).pc.toFin) (by simp)
  have hset : t.skip = true := by
    rcases Nat.lt_or_gt_of_ne (Fin.val_ne_of_ne hne) with hlt | hgt
    · exact h.skip_of_repeat hrunning hlt (by omega) (hv i) (hv j) (BitVec.toFin_inj.mp hpc.symm) ht
    · exact h.skip_of_repeat hrunning hgt (by omega) (hv j) (hv i) (BitVec.toFin_inj.mp hpc) ht
  cases hset.symm.trans hend

/-- R181, R189: the rest of a chain, taken up at a skipped slot, ends within one slot per address if it ends at all. -/
theorem chainEnds_memWords {k : Nat} {s t : State} (hrunning : s.runState = .running) (hskip : s.skip = true)
    (ht : Host.Core.run core (k + 1) s = .next t) (hend : t.skip = false)
    (hbefore : ∀ j, j < k → ∃ u, Host.Core.run core (j + 1) s = .next u ∧ u.skip = true) :
    ChainEnds Config.memWords s t := by
  have hskips : Skips k s := by
    intro j hj
    cases j with
    | zero => exact ⟨s, rfl, hskip⟩
    | succ j => exact hbefore j hj
  exact ⟨k, hskips.lt_memWords hrunning ht hend, ht, hend, hbefore⟩

/-! ## The host's `exec(w)` (R102) -/

/-- The recursive `Exec` taken up at any slot of a chain, under the commit flag that `SKIP` says. -/
def restOfExec (fuel : Nat) (s : State) : Option ExecResult :=
  execRec fuel s.fetched s.commit (s.advance.endSlot false)

/-- R100, R103: the rest of a `Step` is the rest of its `Exec`, and HALTED on DecodeError. -/
theorem restOfChain_eq (fuel : Nat) (s : State) : restOfChain fuel s = stepEnd (restOfExec fuel s) := rfl

/-- R210: `Exec` of an unrecognized word. -/
theorem execRec_of_decode_error {w : Word} {e : DecodeError} (hd : decode w = .error e) (fuel : Nat) (c : Bool)
    (s : State) : execRec (fuel + 1) w c s = some (.decodeError s) := by
  rw [execRec, hd]

/-- R103, R181: `Exec` of a word that decodes, in terms of the flat form's `exec`: it is over with the slot, or the rest
of the chain is to be executed. -/
theorem execRec_of_decode {w : Word} {i : Instr} {s t : State} (hskip : s.skip = false) (hd : decode w = .ok i)
    (hexec : exec i s = .next t) (fuel : Nat) :
    execRec (fuel + 1) w true s = if t.skip then restOfExec fuel t else some (.ok t) := by
  obtain ⟨u, ⟨hbody, rfl⟩ | ⟨hbody, rfl⟩⟩ := exec_next hexec
  all_goals rw [State.commit_of_skip_false hskip] at hbody
  · obtain ⟨-, -, hkept⟩ := slotBody_keeps (.inl hbody)
    have hsame : u.endSlot false = u := State.endSlot_of_skip (hkept.trans hskip)
    rw [State.endSlot_skip, if_neg Bool.false_ne_true, hsame]
    simp only [execRec, hd, hbody]
  · obtain ⟨-, -, hkept⟩ := slotBody_keeps (.inr hbody)
    have hclear : u.advance.endSlot false = u.advance := State.endSlot_of_skip (hkept.trans hskip)
    rw [State.endSlot_skip, if_pos rfl]
    calc execRec (fuel + 1) w true s
        = execRec fuel u.fetched false u.advance := by simp only [execRec, hd, hbody]
      _ = execRec fuel u.fetched false (u.advance.endSlot false) := by rw [hclear]
      _ = restOfExec fuel (u.endSlot true) := rfl

/-- R102: how the host's `exec(w)` reports the end of an `Exec`. -/
def execReply : ExecResult → Reply
  | .ok t => ⟨t, true⟩
  | .decodeError t => ⟨t, false⟩

/-- R102: between steps in RUNNING, `exec(w)` is `Exec(w, true)`. -/
theorem hostExec_running {w : Word} {s : State} (hrun : s.runState = .running) (hskip : s.skip = false) :
    hostExec w s = (execRec (Config.memWords + 1) w true s).map execReply := by
  unfold hostExec
  simp only [hrun, hskip, Bool.false_eq_true, if_false]
  change _ = (execRec Config.chainFuel w true s).map execReply
  cases execRec Config.chainFuel w true s with
  | none => rfl
  | some r => cases r <;> rfl

/-- R102: outside RUNNING, and in the middle of a chain, `exec(w)` is ignored. -/
theorem hostExec_ignored {w : Word} {s : State} (h : s.runState ≠ .running ∨ s.skip = true) :
    hostExec w s = some (ignored s) := by
  unfold hostExec
  split
  · next hrun => rw [if_pos (h.resolve_left (not_not_intro hrun))]
  · rfl
  · rfl

/-- R210: DecodeError of a slot in RUNNING changes the run state alone, `SKIP` being clear. -/
theorem State.decodeError_undone {s : State} (hrun : s.runState = .running) (hskip : s.skip = false) :
    { s.decodeError with runState := .running } = s := by
  calc { s.decodeError with runState := .running }
      = ⟨s.regs, s.pc, s.sp, s.o, s.mem, s.runState, s.cycles, s.skip⟩ := by rw [hrun, hskip]; rfl
    _ = s := rfl

/-- R102, R210: an `Exec` stays in RUNNING whether it ends well or in DecodeError; it is `Step` that halts. -/
theorem restOfExec_of_restOfChain {n : Nat} {s t : State} (hrun : s.runState = .running)
    (h : restOfChain n s = some t) :
    (t.runState = .running ∧ restOfExec n s = some (.ok t)) ∨
    (t.runState = .halted ∧ restOfExec n s = some (.decodeError { t with runState := .running })) := by
  rw [restOfChain_eq] at h
  cases hr : restOfExec n s with
  | none => rw [hr] at h; cases h
  | some r =>
    rw [hr] at h
    cases r with
    | ok u =>
      cases h
      obtain ⟨-, hkept, -⟩ := execRec_keeps (.inl hr)
      exact .inl ⟨hkept.trans hrun, rfl⟩
    | decodeError u =>
      cases h
      obtain ⟨-, hkept, hskip⟩ := execRec_keeps (.inr hr)
      exact .inr ⟨rfl, by rw [State.decodeError_undone (hkept.trans hrun) hskip]⟩

/-- R189: if `SKIP` is never cleared, the rest of an `Exec` does not end, whatever fuel it has. -/
theorem restOfExec_eq_none {n : Nat} {s : State} (hrun : s.runState = .running)
    (h : ∀ k, ∃ u, Host.Core.run core (k + 1) s = .next u ∧ u.skip = true) : restOfExec n s = none := by
  have hchain : restOfChain n s = none := by
    refine Option.eq_none_iff_forall_ne_some.mpr fun t ht => ?_
    obtain ⟨k, -, hrunk, hend, -⟩ := (restOfChain_eq_some_iff hrun).mp ht
    obtain ⟨u, hu, hskip⟩ := h k
    cases hrunk.symm.trans hu
    cases hskip.symm.trans hend
  rw [restOfChain_eq] at hchain
  cases hr : restOfExec n s with
  | none => rfl
  | some r => rw [hr] at hchain; cases r <;> cases hchain

end Sys2Proof.Machine

namespace Sys2Proof.Safety

open Sys2Proof.Machine

/-- Settles O15, by the equation of `step` in RUNNING. -/
theorem stepRunsTheDecodedInstruction : Obligations.StepRunsTheDecodedInstruction :=
  fun _ _ hrun hd => step_of_decode hrun hd

/-- Settles O21: DecodeError writes nothing, and any instruction in a skipped slot passes by. -/
theorem skippedSlotNeverWrites : Obligations.SkippedSlotNeverWrites := by
  intro s t hskip hrun h
  obtain ⟨hnot, -⟩ | ⟨-, e, -, rfl⟩ | ⟨-, i, -, hexec⟩ := step_cases h
  · exact absurd hrun hnot
  · exact ⟨rfl, rfl, rfl, rfl⟩
  · obtain ⟨words, cost, hpassed⟩ := exec_passedBy (s := s.advance) hskip hexec
    exact ⟨hpassed.regs, hpassed.mem, hpassed.sp, hpassed.o⟩

/-- Settles O54, by the ways `exec(w)` can go: ignored, or `Exec` of a word that decodes or does not. -/
theorem execEventRunsOneInstruction : Obligations.ExecEventRunsOneInstruction := by
  intro w s
  refine ⟨fun hnot => hostExec_ignored (.inl hnot), fun hskip => hostExec_ignored (.inr hskip), fun hrun hskip => ?_⟩
  rw [hostExec_running hrun hskip]
  refine ⟨fun e hd => ?_, fun i t hd hexec hend => ?_, fun i t e hd hexec hgoes hnext => ?_⟩
  · rw [execRec_of_decode_error hd]
    rfl
  · rw [execRec_of_decode hskip hd hexec, if_neg (Bool.not_eq_true _ ▸ hend)]
    rfl
  · have hrest : restOfExec Config.memWords t = some (.decodeError (t.advance.endSlot false)) :=
      execRec_of_decode_error hnext _ _ _
    rw [execRec_of_decode hskip hd hexec, if_pos hgoes, hrest]
    rfl

/-- Settles O56: after the false conditional `exec(w)` is the rest of its chain, and that has fuel for every chain that
ends. -/
theorem execEventRunsTheWholeChain : Obligations.ExecEventRunsTheWholeChain := by
  intro w i s t hrun hskip hd hexec hgoes
  obtain ⟨-, hkept⟩ := exec_keeps hexec
  have hrunning : t.runState = .running := hkept.trans hrun
  have hrest : hostExec w s = (restOfExec Config.memWords t).map execReply := by
    rw [hostExec_running hrun hskip, execRec_of_decode hskip hd hexec, if_pos hgoes]
  rw [hrest]
  refine ⟨fun k u hrunk hend hbefore => ?_, fun hnever => ?_⟩
  · have hends : restOfChain Config.memWords t = some u :=
      (restOfChain_eq_some_iff hrunning).mpr (chainEnds_memWords hrunning hgoes hrunk hend hbefore)
    obtain ⟨hu, hok⟩ | ⟨hu, herr⟩ := restOfExec_of_restOfChain hrunning hends
    · exact .inl ⟨hu, by rw [hok]; rfl⟩
    · exact .inr ⟨hu, by rw [herr]; rfl⟩
  · rw [restOfExec_eq_none hrunning hnever]
    rfl

end Sys2Proof.Safety
end

section
/-! PROOFS. Operands: resolving each form (its value, its place, the state it leaves), reading a place after a store
through a place, and the store of what a cell holds already. -/

namespace Sys2Proof.Machine

open Sys2Proof.Safety

/-- R126, R136: POP. -/
theorem resolve_pop (commit : Bool) (s : State) :
    resolve commit .pop s =
      ⟨s.mem.read s.sp, .mem s.sp, { s with sp := if commit then s.sp + 1#16 else s.sp }⟩ := by
  cases commit <;> rfl

/-- R128, R136: PUSH. -/
theorem resolve_push (commit : Bool) (s : State) :
    resolve commit .push s =
      ⟨s.mem.read (s.sp - 1#16), .mem (s.sp - 1#16), { s with sp := if commit then s.sp - 1#16 else s.sp }⟩ := by
  cases commit <;> rfl

/-- R121: resolution reads the value through the place it gives, if it gives one. -/
theorem readHandle_resolve {commit : Bool} {x : Operand} {s : State} (h : (resolve commit x s).handle ≠ .none) :
    readHandle (resolve commit x s).handle s = some (resolve commit x s).value := by
  cases x with
  | nextLit | lit k => exact absurd rfl h
  | reg _ | regInd _ | regOff _ | pop | peek | push | sp | pc | o | nextInd => rfl

/-- R133, R134, R135: of all operand forms only the two literal ones have no place. -/
theorem resolve_handle_eq_none {commit : Bool} {x : Operand} {s : State} :
    (resolve commit x s).handle = .none ↔ x = .nextLit ∨ ∃ k, x = .lit k := by
  cases x <;> simp [resolve]

/-- R10, R137: what a place reads as after a store through a place; `None` reads as no word before and after. -/
theorem readHandle_store (h other : Handle) (v : Word) (s : State) :
    readHandle other (store h v s) =
      if h = other then (readHandle other s).map fun _ => v else readHandle other s := by
  cases other with
  | reg _ | regPC | regSP | regO | mem _ =>
    simp only [readHandle, store_regs, store_pc, store_sp, store_o, store_read, apply_ite some, Option.map_some]
  | none => simp only [readHandle, Option.map_none, ite_self]

/-- R10: every place holds a word. -/
theorem exists_readHandle {h : Handle} (hplace : h ≠ .none) (s : State) : ∃ w, readHandle h s = some w := by
  cases h with
  | none => exact absurd rfl hplace
  | reg _ | regPC | regSP | regO | mem _ => exact ⟨_, rfl⟩

/-- R53: writing to a cell the word it holds gives a canonical memory back. -/
theorem Memory.write_read_self {m : Memory} (hwf : m.wf = true) (addr : Word) : m.write addr (m.read addr) = m := by
  have hread : ∀ other, (m.write addr (m.read addr)).read other = m.read other := by
    intro other
    rw [Memory.read_write]
    split
    · next heq => rw [heq]
    · rfl
  exact (Memory.readAlike_of_read hread).eq (Memory.wf_write hwf _ _) hwf

/-- R53: storing to a cell of a canonical memory the word it holds changes nothing in the state. -/
theorem State.memWrite_read_self {s : State} (hwf : s.mem.wf = true) (addr : Word) :
    s.memWrite addr (s.mem.read addr) = s := by
  rw [State.memWrite, Memory.write_read_self hwf]

/-- R141: in `SET PUSH, POP` operand A's push and operand B's pop cancel, and the word B reads is stored to the cell it
was read from. -/
theorem alu_set_push_pop (s : State) :
    alu fSet baseMove .push .pop true s =
      (s.charge 1).memWrite (s.sp - 1#16) (s.mem.read (s.sp - 1#16)) := by
  have hback : s.sp - 1#16 + 1#16 = s.sp := BitVec.sub_add_cancel _ _
  simp only [alu, resolve_push, resolve_pop, if_true, hback]
  rfl

end Sys2Proof.Machine

namespace Sys2Proof.Safety

open Sys2Proof.Machine

/-- Settles O32, by what a place reads as after a store. -/
theorem storeWritesItsPlaceOnly : Obligations.StoreWritesItsPlaceOnly := by
  intro h other v s
  refine ⟨fun hplace => ?_, fun hne => ?_, rfl⟩
  · obtain ⟨w, hw⟩ := exists_readHandle hplace s
    rw [readHandle_store, if_pos rfl, hw, Option.map_some]
  · rw [readHandle_store, if_neg hne.symm]

/-- Settles O27: both forms leave the state as it is, a charge of 0 cycles included. -/
theorem resolveRegisterDirectAndIndirect : Obligations.ResolveRegisterDirectAndIndirect :=
  fun _ _ _ => ⟨rfl, rfl⟩

/-- Settles O28: the three forms make the same fetch and the same charge of 1 cycle. -/
theorem resolveTrailingWordForms : Obligations.ResolveTrailingWordForms :=
  fun _ _ _ => ⟨rfl, rfl, rfl⟩

/-- Settles O29; POP and PUSH by the mode, which PEEK does not read. -/
theorem resolveStackForms : Obligations.ResolveStackForms :=
  fun commit s => ⟨resolve_pop commit s, rfl, resolve_push commit s⟩

/-- Settles O30: the four forms read a register or nothing and leave the state as it is. -/
theorem resolveSystemRegistersAndLiterals : Obligations.ResolveSystemRegistersAndLiterals :=
  fun _ _ _ => ⟨rfl, rfl, rfl, rfl⟩

/-- Settles O31, by the operand forms. -/
theorem resolvedValueIsWhatThePlaceHolds : Obligations.ResolvedValueIsWhatThePlaceHolds :=
  fun _ _ _ => ⟨readHandle_resolve, resolve_handle_eq_none⟩

/-- Settles O51: the store writes a cell's own word back, which gives canonical memory back, and `SKIP` was 0 before. -/
theorem setPushPopChangesNothing : Obligations.SetPushPopChangesNothing := by
  intro s hskip hwf
  have hstore : (s.charge 1).memWrite (s.sp - 1#16) (s.mem.read (s.sp - 1#16)) = s.charge 1 :=
    State.memWrite_read_self (s := s.charge 1) hwf _
  calc exec (.set .push .pop) s
      = .next ((alu fSet baseMove .push .pop s.commit s).endSlot false) := rfl
    _ = .next ((s.charge 1).endSlot false) := by
        rw [State.commit_of_skip_false hskip, alu_set_push_pop, hstore]
    _ = .next (s.charge 1) := by
        rw [State.endSlot_of_skip ((State.charge_skip s 1).trans hskip)]

end Sys2Proof.Safety
end

section
/-! PROOFS. Arithmetic and logic: the whole effect of a slot in commit mode and in non-commit mode, for any `F_op`; what
each `F_op` gives O; and from these the eleven instructions. -/

namespace Sys2Proof.Machine

open Sys2Proof.Safety

/-! ## One slot, whatever its `F_op` -/

/-- R148: writing O leaves everything else alone. -/
@[simp] theorem writeO_pc (newO : Option Word) (s : State) : (writeO newO s).pc = s.pc := by cases newO <;> rfl
@[simp] theorem writeO_sp (newO : Option Word) (s : State) : (writeO newO s).sp = s.sp := by cases newO <;> rfl
@[simp] theorem writeO_runState (newO : Option Word) (s : State) : (writeO newO s).runState = s.runState := by
  cases newO <;> rfl
@[simp] theorem writeO_cycles (newO : Option Word) (s : State) : (writeO newO s).cycles = s.cycles := by
  cases newO <;> rfl

/-- R148, R163, R164: the effect of an arithmetic or logic instruction in commit mode is the one its `F_op` gives. -/
theorem alu_commit_effect (f : Word → Word → AluOut) (base : Nat) (a b : Operand) (s : State) :
    AluEffect a b (f (valueA true a s) (valueB true a b s)).res (f (valueA true a s) (valueB true a b s)).newO base s
      ((alu f base a b true s).endSlot false) := by
  rw [alu_commit]
  exact
    { regs := fun r => by rw [State.endSlot_regs, writeO_regs, store_regs]
      mem := fun addr => by rw [State.endSlot_mem, writeO_mem, store_read]
      sp := by rw [State.endSlot_sp, writeO_sp, store_sp]
      pc := by rw [State.endSlot_pc, writeO_pc, store_pc, pcPast_pcPast]
      o := by rw [State.endSlot_o, writeO_o, store_o]
      runState := by rw [State.endSlot_runState, writeO_runState, store_runState]
      cycles := by
        rw [State.endSlot_cycles, writeO_cycles, store_cycles]
        change s.cycles + modeCost a + modeCost b + base = _
        omega
      skip := rfl }

/-- R148: an arithmetic or logic slot outside a chain completes, with the effect of its `F_op`'s result and O. -/
theorem aluSlot_effect {f : Word → Word → AluOut} {base : Nat} {a b : Operand} {s : State} {res : Word}
    {newO : Option Word} (hskip : s.skip = false) (hres : (f (valueA true a s) (valueB true a b s)).res = res)
    (hnewO : (f (valueA true a s) (valueB true a b s)).newO = newO) :
    ∃ t, aluSlot (alu f base a b) s = .next t ∧ AluEffect a b res newO base s t := by
  subst hres hnewO
  exact ⟨_, by rw [aluSlot, State.commit_of_skip_false hskip], alu_commit_effect f base a b s⟩

/-- R149: a skipped arithmetic or logic slot completes, passes by and ends the chain, whatever its `F_op`. -/
theorem aluSlot_passedBy {f : Word → Word → AluOut} {base : Nat} {a b : Operand} {s : State} (hskip : s.skip = true) :
    ∃ t, aluSlot (alu f base a b) s = .next t ∧ t.skip = false ∧
      PassedBy (a.owns + b.owns) (base + modeCost a + modeCost b) s t := by
  refine ⟨(alu f base a b false s).endSlot false, ?_, rfl, ?_⟩
  · rw [aluSlot, State.commit_of_skip_true hskip]
  · rw [Nat.add_assoc, Nat.add_comm base]
    exact (alu_passedBy f base a b s).endSlot false

/-- R103, R166: each row of the table runs as an arithmetic or logic slot with the row's base cost. -/
theorem exec_of_mem_aluWithBase (a b : Operand) (s : State) :
    ∀ row ∈ aluWithBase a b, ∃ f, exec row.1 s = aluSlot (alu f row.2 a b) s := by
  simp only [aluWithBase, List.forall_mem_cons]
  exact ⟨⟨fSet, rfl⟩, ⟨fAdd, rfl⟩, ⟨fSub, rfl⟩, ⟨fMul, rfl⟩, ⟨fDiv, rfl⟩, ⟨fMod, rfl⟩, ⟨fShl, rfl⟩, ⟨fShr, rfl⟩,
    ⟨fAnd, rfl⟩, ⟨fBor, rfl⟩, ⟨fXor, rfl⟩, List.forall_mem_nil _⟩

/-! ## The word an arithmetic instruction gives O -/

/-- R151: O is the carry of the sum. -/
theorem fAdd_newO (va vb : Word) :
    (fAdd va vb).newO = some (if va.toNat + vb.toNat ≥ 65536 then 1#16 else 0#16) :=
  rfl

/-- R152: the borrow is an unsigned comparison of the values. -/
theorem fSub_newO (va vb : Word) : (fSub va vb).newO = some (if vb > va then 0xFFFF#16 else 0#16) :=
  rfl

/-- A number below 2 ^ 32 is made of its two halves as words (R153, R162). -/
theorem high_low_toNat {n : Nat} (h : n < 2 ^ 32) :
    (BitVec.ofNat 16 (n >>> 16)).toNat * 65536 + (BitVec.ofNat 16 n).toNat = n := by
  rw [BitVec.toNat_ofNat, BitVec.toNat_ofNat, Nat.shiftRight_eq_div_pow]
  omega

/-- R153: O and the result of MUL are the halves of the product, which has at most 32 bits. -/
theorem fMul_halves (va vb : Word) : ∃ hi, (fMul va vb).newO = some hi ∧
    hi.toNat * 65536 + (fMul va vb).res.toNat = va.toNat * vb.toNat :=
  ⟨_, rfl, high_low_toNat (Nat.mul_lt_mul'' (c := 2 ^ 16) (d := 2 ^ 16) va.isLt vb.isLt)⟩

/-- A word other than 0 is positive as a number. -/
theorem toNat_pos_of_ne_zero {v : Word} (h : v ≠ 0#16) : 0 < v.toNat :=
  Nat.pos_of_ne_zero fun hzero => h (BitVec.eq_of_toNat_eq hzero)

/-- R154: the truncated quotient is the one between these bounds. -/
theorem udiv_toNat_bounds (va : Word) {vb : Word} (h : vb ≠ 0#16) :
    (va / vb).toNat * vb.toNat ≤ va.toNat ∧ va.toNat < ((va / vb).toNat + 1) * vb.toNat := by
  rw [BitVec.toNat_udiv]
  exact ⟨Nat.div_mul_le_self _ _, Nat.lt_mul_of_div_lt (Nat.lt_succ_self _) (toNat_pos_of_ne_zero h)⟩

/-- R155: O after DIV (D14), 0 for divisor zero. -/
theorem fDiv_newO (va vb : Word) : (fDiv va vb).newO = some (if vb = 0#16 then 0#16 else divOverflow va vb) := by
  unfold fDiv
  split <;> rfl

/-- R155: the fraction that O takes as a number (D14). -/
theorem divOverflow_toNat (va vb : Word) : (divOverflow va vb).toNat = va.toNat * 65536 / vb.toNat % 65536 := by
  rw [divOverflow, BitVec.toNat_ofNat, Nat.shiftLeft_eq]

/-- R156: MOD gives O a value for divisor zero only. -/
theorem fMod_newO (va vb : Word) : (fMod va vb).newO = if vb = 0#16 then some 0#16 else none := by
  unfold fMod
  split <;> rfl

/-- A word moved left and then no further back right, narrowed to a word: it has moved left by the difference. -/
theorem ofNat_shiftLeft_shiftRight_of_ge (v : Word) {m n : Nat} (h : n ≤ m) :
    BitVec.ofNat 16 (v.toNat <<< m >>> n) = v <<< (m - n) := by
  obtain ⟨d, rfl⟩ := Nat.exists_eq_add_of_le' h
  apply BitVec.eq_of_toNat_eq
  rw [Nat.shiftLeft_add, Nat.shiftLeft_shiftRight, Nat.add_sub_cancel, BitVec.toNat_shiftLeft, BitVec.toNat_ofNat]

/-- A word moved left and then at least as far back right: it has moved right by the difference. -/
theorem ofNat_shiftLeft_shiftRight_of_le (v : Word) {m n : Nat} (h : m ≤ n) :
    BitVec.ofNat 16 (v.toNat <<< m >>> n) = v >>> (n - m) := by
  obtain ⟨d, rfl⟩ := Nat.exists_eq_add_of_le h
  rw [Nat.shiftRight_add, Nat.shiftLeft_shiftRight, Nat.add_sub_cancel_left, ← BitVec.toNat_ushiftRight,
    BitVec.ofNat_toNat, BitVec.setWidth_eq]

/-- R157: O after SHL is the high half of the window (D15), which is `va` moved left by the count and back right by
16. -/
theorem fShl_newO (va vb : Word) : (fShl va vb).newO = some (BitVec.ofNat 16 (va.toNat <<< vb.toNat >>> 16)) := by
  have hwindow : ∀ x : Nat, x % 2 ^ 32 / 2 ^ 16 % 2 ^ 16 = x / 2 ^ 16 % 2 ^ 16 := by omega
  refine congrArg some (BitVec.eq_of_toNat_eq ?_)
  simp only [BitVec.toNat_ofNat, Nat.shiftRight_eq_div_pow, hwindow]

/-- R158: O after SHR is the low half of the window (D15). -/
theorem fShr_newO (va vb : Word) : (fShr va vb).newO = some (BitVec.ofNat 16 (va.toNat <<< 16 >>> vb.toNat)) := rfl

end Sys2Proof.Machine

namespace Sys2Proof.Safety

open Sys2Proof.Machine

/-- Settles O33: `F_op` gives operand B's value, and O none. -/
theorem setStoresOperandB : Obligations.SetStoresOperandB :=
  fun _ _ _ hskip => aluSlot_effect hskip rfl rfl

/-- Settles O34, by the wrapped sum and its carry. -/
theorem addStoresSumAndCarry : Obligations.AddStoresSumAndCarry :=
  fun _ _ _ hskip => aluSlot_effect hskip (fAdd_res _ _) (fAdd_newO _ _)

/-- Settles O35, by the wrapped difference and its borrow. -/
theorem subStoresDifferenceAndBorrow : Obligations.SubStoresDifferenceAndBorrow :=
  fun _ _ _ hskip => aluSlot_effect hskip rfl (fSub_newO _ _)

/-- Settles O36: O and the result are the halves of the product. -/
theorem mulStoresProductHalves : Obligations.MulStoresProductHalves := by
  intro a b s hskip va vb
  obtain ⟨hi, hnewO, hhalves⟩ := fMul_halves va vb
  obtain ⟨t, hexec, heffect⟩ := aluSlot_effect hskip rfl hnewO
  exact ⟨t, hi, _, hexec, heffect, hhalves⟩

/-- Settles O37, by whether the divisor is zero; if not, the quotient's bounds and D14's fraction. -/
theorem divStoresQuotientAndFraction : Obligations.DivStoresQuotientAndFraction := by
  intro a b s hskip va vb
  obtain ⟨t, hexec, heffect⟩ := aluSlot_effect hskip (fDiv_res va vb) (fDiv_newO va vb)
  refine ⟨t, _, _, hexec, heffect, fun hzero => ⟨if_pos hzero, if_pos hzero⟩, fun hne => ?_⟩
  rw [if_neg hne, if_neg hne]
  obtain ⟨hlow, hhigh⟩ := udiv_toNat_bounds va hne
  exact ⟨hlow, hhigh, divOverflow_toNat va vb⟩

/-- Settles O38, by whether the divisor is zero; if not, the quotient of the same division is the witness. -/
theorem modStoresRemainder : Obligations.ModStoresRemainder := by
  intro a b s hskip va vb
  have hrun := aluSlot_effect (base := baseDivide) hskip (fMod_res va vb) (fMod_newO va vb)
  refine ⟨fun hzero => ?_, fun hne => ?_⟩
  · rwa [if_pos hzero, if_pos hzero] at hrun
  · rw [if_neg hne, if_neg hne] at hrun
    obtain ⟨t, hexec, heffect⟩ := hrun
    refine ⟨t, va % vb, hexec, heffect, ?_⟩
    rw [BitVec.toNat_umod]
    exact ⟨Nat.mod_lt _ (toNat_pos_of_ne_zero hne), va.toNat / vb.toNat, Nat.div_add_mod' _ _⟩

/-- Settles O39: O is `va` moved left by the count and back right by 16, the result is 0 from 16 on, and so is O from 32
on. -/
theorem shlStoresShiftAndHighBits : Obligations.ShlStoresShiftAndHighBits := by
  intro a b s hskip va n
  obtain ⟨t, hexec, heffect⟩ := aluSlot_effect hskip (fShl_res va _) (fShl_newO va _)
  refine ⟨t, _, _, hexec, heffect, fun h => ⟨rfl, ?_⟩, fun h _ => ⟨?_, ?_⟩, fun h => ⟨?_, ?_⟩⟩
  · exact ofNat_shiftLeft_shiftRight_of_le va (by omega)
  · exact BitVec.shiftLeft_eq_zero h
  · exact ofNat_shiftLeft_shiftRight_of_ge va h
  · exact BitVec.shiftLeft_eq_zero (by omega)
  · rw [ofNat_shiftLeft_shiftRight_of_ge va (by omega)]
    exact BitVec.shiftLeft_eq_zero (by omega)

/-- Settles O40: O is `va` moved left by 16 and back right by the count, the result is 0 from 16 on, and so is O from 32
on. -/
theorem shrStoresShiftAndLowBits : Obligations.ShrStoresShiftAndLowBits := by
  intro a b s hskip va n
  obtain ⟨t, hexec, heffect⟩ := aluSlot_effect hskip (fShr_res va _) (fShr_newO va _)
  refine ⟨t, _, _, hexec, heffect, fun h => ⟨rfl, ?_⟩, fun h _ => ⟨?_, ?_⟩, fun h => ⟨?_, ?_⟩⟩
  · exact ofNat_shiftLeft_shiftRight_of_ge va (by omega)
  · exact BitVec.ushiftRight_eq_zero h
  · exact ofNat_shiftLeft_shiftRight_of_le va h
  · exact BitVec.ushiftRight_eq_zero (by omega)
  · rw [ofNat_shiftLeft_shiftRight_of_le va (by omega)]
    exact BitVec.ushiftRight_eq_zero (by omega)

/-- Settles O41: the result of each is the operation on words, which is bit by bit, and O gets no value. -/
theorem logicStoresBitwiseResult : Obligations.LogicStoresBitwiseResult := by
  intro a b s hskip va vb
  refine ⟨?_, ?_, ?_⟩
  · obtain ⟨t, hexec, heffect⟩ := aluSlot_effect (f := fAnd) (base := baseMove) hskip rfl rfl
    exact ⟨t, va &&& vb, hexec, heffect, fun _ _ => BitVec.getLsbD_and⟩
  · obtain ⟨t, hexec, heffect⟩ := aluSlot_effect (f := fBor) (base := baseMove) hskip rfl rfl
    exact ⟨t, va ||| vb, hexec, heffect, fun _ _ => BitVec.getLsbD_or⟩
  · obtain ⟨t, hexec, heffect⟩ := aluSlot_effect (f := fXor) (base := baseMove) hskip rfl rfl
    exact ⟨t, va ^^^ vb, hexec, heffect, fun _ _ => by rw [BitVec.getLsbD_xor, Bool.bne_eq_xor]⟩

/-- Settles O42: each of the eleven runs as an arithmetic or logic slot, and any such slot passes by when skipped. -/
theorem skippedArithmeticPassesBy : Obligations.SkippedArithmeticPassesBy := by
  intro a b s hskip row hrow
  obtain ⟨f, hexec⟩ := exec_of_mem_aluWithBase a b s row hrow
  rw [hexec]
  exact aluSlot_passedBy hskip

end Sys2Proof.Safety
end

section
/-! PROOFS. Conditionals: the whole effect of a conditional slot in either mode, for any predicate, and what the four
predicates say; the slot after a false one, passed by over exactly its words; and the fuel of the recursive form, which
reads neither the run state nor `SKIP`, so that a chain taken up in any state is one of the running core. -/

namespace Sys2Proof.Machine

open Sys2Proof.Safety

/-! ## One conditional slot, whatever its predicate -/

/-- R180, R185: a conditional slot completes, in either mode, with the effect its predicate's meaning gives. -/
theorem condSlot_effect {p : Word → Word → Bool} {a b : Operand} {s : State} {holds : Prop}
    (hp : p (valueA s.commit a s) (valueB s.commit a b s) = true ↔ holds) :
    ∃ t, condSlot (cond p a b) s = .next t ∧ CondEffect a b holds s t := by
  refine ⟨_, rfl, ?_⟩
  rw [cond_eq]
  exact
    { regs := rfl
      mem := rfl
      o := rfl
      runState := rfl
      sp := rfl
      pc := pcPast_pcPast _ _ _
      whenTrue := fun hholds => by
        rw [hp.mpr hholds]
        refine ⟨rfl, ?_⟩
        change s.cycles + modeCost a + modeCost b + 2 = _
        omega
      whenFalse := fun hfails => by
        rw [Bool.eq_false_iff.mpr fun htrue => hfails (hp.mp htrue)]
        refine ⟨rfl, ?_⟩
        change s.cycles + modeCost a + modeCost b + 3 = _
        omega }

/-- R182. -/
theorem pIfe_iff {va vb : Word} : pIfe va vb = true ↔ va = vb := beq_iff_eq

/-- R183. -/
theorem pIfn_iff {va vb : Word} : pIfn va vb = true ↔ va ≠ vb := bne_iff_ne

/-- R184. -/
theorem pIfg_iff {va vb : Word} : pIfg va vb = true ↔ va.toNat > vb.toNat := decide_eq_true_iff

/-- A word is not 0 exactly when some bit of it is set. -/
theorem ne_zero_iff_exists_bit {v : Word} : v ≠ 0#16 ↔ ∃ k, k < 16 ∧ v.getLsbD k = true := by
  constructor
  · contrapose!
    exact fun hclear => BitVec.eq_of_getLsbD_eq fun k hk => by simpa using hclear k hk
  · rintro ⟨k, -, hset⟩ rfl
    simp at hset

/-- R186. -/
theorem pIfb_iff {va vb : Word} :
    pIfb va vb = true ↔ ∃ k, k < 16 ∧ va.getLsbD k = true ∧ vb.getLsbD k = true := by
  rw [pIfb, bne_iff_ne, ne_zero_iff_exists_bit]
  simp only [BitVec.getLsbD_and, Bool.and_eq_true]

/-! ## The slot after a false conditional -/

/-- R187: an instruction that is no conditional completes in a skipped slot, passes by its trailing words and ends the
chain. -/
theorem exec_ends_chain {i : Instr} {s : State} (hskip : s.skip = true)
    (hi : destination i ≠ none ∨ ∃ b, i = .jsr b) :
    ∃ t, exec i s = .next t ∧ t.skip = false ∧ ∃ cost, PassedBy i.trailingWords cost s t := by
  cases i
  case jsr b =>
    refine ⟨(bodyJsr b s.commit s).endSlot false, rfl, rfl, modeCost b + baseCall, ?_⟩
    rw [State.commit_of_skip_true hskip]
    exact (bodyJsr_passedBy b s).endSlot false
  case ife | ifn | ifg | ifb => simp [destination] at hi
  all_goals
    obtain ⟨t, hexec, hend, hpassed⟩ := aluSlot_passedBy hskip
    exact ⟨t, hexec, hend, _, hpassed⟩

/-- R104, R187: the same in a step of the running core, which passes by the instruction word as well. -/
theorem step_ends_chain {i : Instr} {s : State} (hrun : s.runState = .running) (hskip : s.skip = true)
    (hd : decode s.fetched = .ok i) (hi : destination i ≠ none ∨ ∃ b, i = .jsr b) :
    ∃ t, step s = .next t ∧ t.skip = false ∧ ∃ cost, PassedBy i.length cost s t := by
  obtain ⟨t, hexec, hend, cost, hpassed⟩ := exec_ends_chain (s := s.advance) hskip hi
  exact ⟨t, (step_of_decode hrun hd).trans hexec, hend, _, (PassedBy.advance s).trans hpassed⟩

/-! ## The recursive form reads neither the run state nor `SKIP` -/

/-- A state with its run state and `SKIP` set anew. -/
def State.inMode (rs : RunState) (k : Bool) (s : State) : State := { s with runState := rs, skip := k }

/-- A slot's result with the run state and `SKIP` set anew in its state. -/
def SlotResult.inMode (rs : RunState) (k : Bool) : SlotResult → SlotResult
  | .done t => .done (t.inMode rs k)
  | .skipNext t => .skipNext (t.inMode rs k)

/-- The end of an `Exec` with the run state and `SKIP` set anew in its state. -/
def ExecResult.inMode (rs : RunState) (k : Bool) : ExecResult → ExecResult
  | .ok t => .ok (t.inMode rs k)
  | .decodeError t => .decodeError (t.inMode rs k)

section
variable (rs : RunState) (k : Bool)

/-- R31: a charge. -/
theorem State.charge_inMode (s : State) (n : Nat) : (s.inMode rs k).charge n = (s.charge n).inMode rs k := rfl

/-- R121: resolution. -/
theorem resolve_inMode (c : Bool) (x : Operand) (s : State) :
    resolve c x (s.inMode rs k) =
      ⟨(resolve c x s).value, (resolve c x s).handle, (resolve c x s).state.inMode rs k⟩ := by
  cases x <;> cases c <;> rfl

/-- R137: a store. -/
theorem store_inMode (h : Handle) (v : Word) (s : State) : store h v (s.inMode rs k) = (store h v s).inMode rs k := by
  cases h <;> rfl

/-- R148: the write of O. -/
theorem writeO_inMode (newO : Option Word) (s : State) :
    writeO newO (s.inMode rs k) = (writeO newO s).inMode rs k := by
  cases newO <;> rfl

/-- R148: an arithmetic or logic body. -/
theorem alu_inMode (f : Word → Word → AluOut) (base : Nat) (a b : Operand) (c : Bool) (s : State) :
    alu f base a b c (s.inMode rs k) = (alu f base a b c s).inMode rs k := by
  simp only [alu, resolve_inMode, State.charge_inMode, store_inMode, writeO_inMode]
  cases c <;> rfl

/-- R180: a conditional. -/
theorem condResult_cond_inMode (p : Word → Word → Bool) (a b : Operand) (c : Bool) (s : State) :
    condResult (cond p a b c (s.inMode rs k)) = (condResult (cond p a b c s)).inMode rs k := by
  have hout : cond p a b c (s.inMode rs k) = ⟨(cond p a b c s).holds, (cond p a b c s).state.inMode rs k⟩ := by
    simp only [cond, resolve_inMode, State.charge_inMode]
  rw [hout, condResult, condResult]
  cases (cond p a b c s).holds <;> rfl

/-- R200: a call. -/
theorem bodyJsr_inMode (b : Operand) (c : Bool) (s : State) :
    bodyJsr b c (s.inMode rs k) = (bodyJsr b c s).inMode rs k := by
  simp only [bodyJsr, resolve_inMode, State.charge_inMode]
  cases c <;> rfl

/-- R103: the body of a slot. -/
theorem slotBody_inMode (i : Instr) (c : Bool) (s : State) :
    slotBody i c (s.inMode rs k) = (slotBody i c s).inMode rs k := by
  cases i
  case jsr b => exact congrArg SlotResult.done (bodyJsr_inMode rs k b c s)
  case ife | ifn | ifg | ifb => exact condResult_cond_inMode rs k _ _ _ c s
  all_goals exact congrArg SlotResult.done (alu_inMode rs k _ _ _ _ c s)

/-- R103, R181: an `Exec`, slot by slot. -/
theorem execRec_inMode (n : Nat) (w : Word) (c : Bool) (s : State) :
    execRec n w c (s.inMode rs k) = (execRec n w c s).map (ExecResult.inMode rs k) := by
  induction n generalizing w c s with
  | zero => rfl
  | succ n ih =>
    simp only [execRec, slotBody_inMode]
    cases decode w with
    | error e => rfl
    | ok i =>
      cases hbody : slotBody i c s with
      | done t => simp only [hbody]; rfl
      | skipNext t => simp only [hbody]; exact ih t.fetched false t.advance

end

/-- R100: the recursive `Step` from any state is the one of the running core at the start of a chain, with the run state
and `SKIP` it was taken up with. -/
theorem stepRec_eq_restOfExec (n : Nat) (s : State) :
    stepRec n s =
      stepEnd ((restOfExec n (s.inMode .running false)).map (ExecResult.inMode s.runState s.skip)) := by
  have hexec : execRec n s.fetched true s.advance =
      (restOfExec n (s.inMode .running false)).map (ExecResult.inMode s.runState s.skip) :=
    execRec_inMode s.runState s.skip n s.fetched true (s.inMode .running false).advance
  rw [← hexec]
  unfold stepRec stepEnd
  rfl

/-! ## The fuel of the recursive form (R189) -/

/-- R189: a chain that ends does so within its first slot and one skipped slot per address. -/
theorem ChainEnds.memWords_succ {n : Nat} {s t : State} (hrun : s.runState = .running) (h : ChainEnds n s t) :
    ChainEnds (Config.memWords + 1) s t := by
  obtain ⟨u, hstep⟩ := exists_next s
  cases n with
  | zero =>
    obtain ⟨k, hk, -⟩ := h
    exact absurd hk k.not_lt_zero
  | succ n =>
    rw [chainEnds_succ hstep] at h ⊢
    cases hskip : u.skip with
    | false => simpa [hskip] using h
    | true =>
      rw [if_pos hskip] at h
      obtain ⟨k, -, hrunk, hend, hbefore⟩ := h
      exact chainEnds_memWords (step_running_of_skip hrun hstep hskip) hskip hrunk hend hbefore

/-- R210: an `Exec` of the running core that ends in `Step`'s state `t` ends one way, whatever its fuel. -/
theorem restOfExec_eq_of_restOfChain {m n : Nat} {s t : State} (hrun : s.runState = .running)
    (hm : restOfChain m s = some t) (hn : restOfChain n s = some t) : restOfExec m s = restOfExec n s := by
  obtain ⟨hgoes, hm⟩ | ⟨hhalts, hm⟩ := restOfExec_of_restOfChain hrun hm <;>
    obtain ⟨hgoes', hn⟩ | ⟨hhalts', hn⟩ := restOfExec_of_restOfChain hrun hn
  · rw [hm, hn]
  · cases hgoes.symm.trans hhalts'
  · cases hhalts.symm.trans hgoes'
  · rw [hm, hn]

/-- R189: an `Exec` of the running core that ends with any fuel ends the same way with that of its first slot and one
skipped slot per address. -/
theorem restOfExec_memWords_succ {n : Nat} {s : State} {r : ExecResult} (hrun : s.runState = .running)
    (h : restOfExec n s = some r) : restOfExec (Config.memWords + 1) s = some r := by
  obtain ⟨t, ht⟩ : ∃ t, restOfChain n s = some t := by
    rw [restOfChain_eq, h]
    cases r <;> exact ⟨_, rfl⟩
  have hfuel : restOfChain (Config.memWords + 1) s = some t :=
    (restOfChain_eq_some_iff hrun).mpr (((restOfChain_eq_some_iff hrun).mp ht).memWords_succ hrun)
  rw [restOfExec_eq_of_restOfChain hrun hfuel ht, h]

end Sys2Proof.Machine

namespace Sys2Proof.Safety

open Sys2Proof.Machine

/-- Settles O43, by the predicate's meaning. -/
theorem ifeTestsEquality : Obligations.IfeTestsEquality := fun _ _ _ => condSlot_effect pIfe_iff

/-- Settles O44, by the predicate's meaning. -/
theorem ifnTestsInequality : Obligations.IfnTestsInequality := fun _ _ _ => condSlot_effect pIfn_iff

/-- Settles O45, by the predicate's meaning. -/
theorem ifgTestsUnsignedGreater : Obligations.IfgTestsUnsignedGreater := fun _ _ _ => condSlot_effect pIfg_iff

/-- Settles O46, by the predicate's meaning. -/
theorem ifbTestsCommonBit : Obligations.IfbTestsCommonBit := fun _ _ _ => condSlot_effect pIfb_iff

/-- Settles O47: the core still runs after the conditional, and the skipped slot passes by its words and ends the
chain. -/
theorem falseConditionalPassesOverNextSlot : Obligations.FalseConditionalPassesOverNextSlot := by
  intro s u i j hrun hd hexec hskip hnext hj
  obtain ⟨-, hkept⟩ := exec_keeps hexec
  have hrunning : u.runState = .running := hkept.trans hrun
  obtain ⟨t, hstep, hend, cost, hpassed⟩ := step_ends_chain hrunning hskip hnext hj
  exact ⟨(step_of_decode hrun hd).trans hexec, t, hstep, hend, hpassed.pc, hpassed.regs, hpassed.mem, hpassed.sp,
    hpassed.o, hpassed.runState.trans hrunning⟩

/-- Settles O26: a recursive `Step` from any state ends as one of the running core does, for which one slot per address
after the first is fuel enough. -/
theorem chainFuelIsEnough : Obligations.ChainFuelIsEnough := by
  intro s t n h
  rw [stepRec_eq_restOfExec] at h ⊢
  cases hr : restOfExec n (s.inMode .running false) with
  | none => rw [hr] at h; cases h
  | some r =>
    have hfuel : restOfExec Config.chainFuel (s.inMode .running false) = some r := restOfExec_memWords_succ rfl hr
    rwa [hfuel, ← hr]

end Sys2Proof.Safety
end

section
/-! PROOFS. Subroutine call and control transfer: a call slot in either mode, and the two idioms that write PC with an
arithmetic instruction, the return `SET PC, POP` and the loop `SUB PC, 1`. -/

namespace Sys2Proof.Machine

open Sys2Proof.Safety

/-- R200, R202: a call in commit mode, with its operand's resolution written out. -/
theorem bodyJsr_commit (b : Operand) (s : State) :
    bodyJsr b true s =
      { s.memWrite (spAfter true b s.sp - 1#16) (pcPast s.pc b.owns) with
        sp := spAfter true b s.sp - 1#16
        pc := (resolve true b s).value
        cycles := s.cycles + modeCost b + baseCall } := by
  simp only [bodyJsr, resolve_state, if_true]
  rfl

/-- R33, R200: a call slot runs its body in the mode `SKIP` gives, and clears `SKIP`. -/
theorem exec_jsr (b : Operand) (s : State) :
    exec (.jsr b) s = .next ((bodyJsr b s.commit s).endSlot false) :=
  rfl

/-- R203, R205: `SET PC, POP` jumps to the word on the stack and takes it off. -/
theorem exec_set_pc_pop {s : State} (hskip : s.skip = false) :
    exec (.set .pc .pop) s =
      .next ({ s with pc := s.mem.read s.sp, sp := s.sp + 1#16, cycles := s.cycles + 1 }.endSlot false) := by
  change Host.Outcome.next ((alu fSet baseMove .pc .pop s.commit s).endSlot false) = _
  rw [State.commit_of_skip_false hskip, alu_commit]
  rfl

/-- R152, R203: `SUB PC, k` with an embedded literal jumps `k` words back from the PC it reads; O is the borrow. -/
theorem exec_sub_pc_lit {s : State} (hskip : s.skip = false) (k : Word) :
    exec (.sub .pc (.lit k)) s =
      .next ({ s with
        pc := s.pc - k
        o := if k > s.pc then 0xFFFF#16 else 0#16
        cycles := s.cycles + 2 }.endSlot false) := by
  change Host.Outcome.next ((alu fSub baseArith .pc (.lit k) s.commit s).endSlot false) = _
  rw [State.commit_of_skip_false hskip, alu_commit]
  rfl

/-- R71, R76, R77: the word of `SUB PC, 1`. -/
theorem decode_sub_pc_one : decode 0x85C3#16 = .ok (.sub .pc (.lit 1#16)) := by decide

end Sys2Proof.Machine

namespace Sys2Proof.Safety

open Sys2Proof.Machine

/-- Settles O48: the call's equation gives each field, and the cell it pushes to and every other one read as after one
write. -/
theorem jsrPushesReturnAddressAndJumps : Obligations.JsrPushesReturnAddressAndJumps := by
  intro b s hskip
  refine ⟨(bodyJsr b true s).endSlot false, ?_, ?_⟩
  · rw [exec_jsr, State.commit_of_skip_false hskip]
  rw [bodyJsr_commit]
  refine ⟨rfl, rfl, ?pushed, fun addr hne => ?others, rfl, rfl, rfl, rfl, ?cost⟩
  case pushed => exact (Memory.read_write ..).trans (if_pos rfl)
  case others => exact (Memory.read_write ..).trans (if_neg hne.symm)
  case cost =>
    change s.cycles + modeCost b + 2 = _
    omega

/-- Settles O49: a call in non-commit mode passes by, and the slot's end clears `SKIP`. -/
theorem skippedJsrPassesBy : Obligations.SkippedJsrPassesBy := by
  intro b s hskip
  refine ⟨(bodyJsr b false s).endSlot false, ?_, rfl, ?_⟩
  · rw [exec_jsr, State.commit_of_skip_true hskip]
  · rw [Nat.add_comm]
    exact (bodyJsr_passedBy b s).endSlot false

/-- Settles O50: the return jumps to the word on the stack, which is the address the call pushed (O48), and moves SP
back over it. -/
theorem setPcPopReturnsFromCall : Obligations.SetPcPopReturnsFromCall := by
  intro b s t hskip hcall
  obtain ⟨t', hcall', -, hsp, hpushed, -, hregs, ho, -, hskip', -⟩ := jsrPushesReturnAddressAndJumps b s hskip
  cases hcall.symm.trans hcall'
  refine ⟨_, exec_set_pc_pop hskip', hpushed, ?_, hregs, ho, rfl⟩
  calc t.sp + 1#16 = spAfter true b s.sp - 1#16 + 1#16 := by rw [hsp]
    _ = spAfter true b s.sp := BitVec.sub_add_cancel _ _

/-- Settles O52: the fetch moves PC one on, and the instruction moves it one back. -/
theorem subPcOneLoopsOnItself : Obligations.SubPcOneLoopsOnItself := by
  intro s hrun hskip hword
  have hdecode : decode s.fetched = .ok (.sub .pc (.lit 1#16)) := by rw [State.fetched, hword, decode_sub_pc_one]
  have hback : s.pc + 1#16 - 1#16 = s.pc := BitVec.add_sub_cancel _ _
  have hstep := (step_of_decode hrun hdecode).trans (exec_sub_pc_lit (s := s.advance) hskip 1#16)
  exact ⟨_, hstep, hback, rfl, rfl, rfl, hrun, rfl, rfl⟩

end Sys2Proof.Safety
end

section
/-! PROOFS. Exceptions and the life cycle: DecodeError is the only way a step leaves RUNNING, and the host's `run`,
`halt` and `reset` each have one equation where they are accepted and one where they are ignored. -/

namespace Sys2Proof.Machine

open Sys2Proof.Safety

/-- R80, R210: a step in RUNNING on an unrecognized word is DecodeError, `SKIP` set or not (D12). -/
theorem step_of_unrecognized {s : State} (hrun : s.runState = .running) (hw : Unrecognized s.fetched) :
    step s = .next s.advance.decodeError := by
  obtain ⟨hop, hext⟩ := (unrecognized_iff _).mp hw
  exact step_of_decode_error hrun (decode_unrecognized hop hext)

/-- R103, R224: a step on a word that decodes stays in RUNNING, whatever the instruction. -/
theorem step_stays_running {s t : State} {i : Instr} (hrun : s.runState = .running) (hd : decode s.fetched = .ok i)
    (h : step s = .next t) : t.runState = .running := by
  obtain ⟨-, hkept⟩ := exec_keeps ((step_of_decode hrun hd).symm.trans h)
  exact hkept.trans hrun

/-- R108: `run` in INIT. -/
theorem hostRun_init {s : State} (h : s.runState = .init) : hostRun s = ⟨{ s with runState := .running }, true⟩ := by
  simp only [hostRun, h]

/-- R108: `run` elsewhere. -/
theorem hostRun_ignored {s : State} (h : s.runState ≠ .init) : hostRun s = ignored s := by
  unfold hostRun
  split
  · next hinit => exact absurd hinit h
  · rfl
  · rfl

/-- R213: `halt` between steps in RUNNING (D20). -/
theorem hostHalt_running {s : State} (hrun : s.runState = .running) (hskip : s.skip = false) :
    hostHalt s = ⟨{ s with runState := .halted }, true⟩ := by
  simp only [hostHalt, hrun, hskip, Bool.false_eq_true, if_false]

/-- R211, R213: `halt` outside RUNNING, and in the middle of a chain (D20). -/
theorem hostHalt_ignored {s : State} (h : s.runState ≠ .running ∨ s.skip = true) : hostHalt s = ignored s := by
  unfold hostHalt
  split
  · next hrun => rw [if_pos (h.resolve_left (not_not_intro hrun))]
  · rfl
  · rfl

/-- R240: `reset` in INIT clears everything and reports failure (D19). -/
theorem hostReset_init {s : State} (h : s.runState = .init) : hostReset s = ⟨State.reset, false⟩ :=
  congrArg (Reply.mk State.reset) (decide_eq_false (not_not_intro h))

/-- R240: `reset` elsewhere clears everything and reports success. -/
theorem hostReset_of_ne_init {s : State} (h : s.runState ≠ .init) : hostReset s = ⟨State.reset, true⟩ :=
  congrArg (Reply.mk State.reset) (decide_eq_true h)

end Sys2Proof.Machine

namespace Sys2Proof.Safety

open Sys2Proof.Machine

/-- Settles O17: a step in RUNNING always has a next state; on a word that does not decode it is DecodeError's, and on
one that does it is a slot's, which keeps the run state. -/
theorem onlyDecodeErrorLeavesRunning : Obligations.OnlyDecodeErrorLeavesRunning := by
  intro s hrun
  obtain ⟨t, hstep⟩ := exists_step_next hrun
  refine ⟨t, hstep, fun ⟨e, hd⟩ => ?_, fun ⟨i, hd⟩ => step_stays_running hrun hd hstep⟩
  cases hstep.symm.trans (step_of_decode_error hrun hd)
  rfl

/-- Settles O16: DecodeError after the fetch is the state the statement writes out. -/
theorem unrecognizedWordHalts : Obligations.UnrecognizedWordHalts :=
  fun _ hrun hw => step_of_unrecognized hrun hw

/-- Settles O53, by the equations of the three events; reset and halt together are answered as reset by definition. -/
theorem lifeCycleEvents : Obligations.LifeCycleEvents :=
  fun _ => ⟨hostRun_init, hostRun_ignored, hostHalt_running, hostHalt_ignored, hostReset_init, hostReset_of_ne_init, rfl⟩

end Sys2Proof.Safety
end

section
/-! PROOFS. Reset and hazards: the cycle counter. Nothing reads it, so a step from any count is the step from 0 with
that count charged before it; and every slot's body only adds its costs to it. -/

namespace Sys2Proof.Machine

open Sys2Proof.Safety

/-- R251: any count is charged cycles on a counter at 0. -/
theorem State.charge_of_cycles_zero (s : State) (n : Nat) :
    ({ s with cycles := 0 } : State).charge n = { s with cycles := n } := by
  simp only [State.charge, Nat.zero_add]

/-- R148, R149: what an arithmetic or logic body charges, in either mode (D18). -/
theorem alu_cycles (f : Word → Word → AluOut) (base : Nat) (a b : Operand) (c : Bool) (s : State) :
    (alu f base a b c s).cycles = s.cycles + modeCost a + modeCost b + base := by
  cases c with
  | false => rw [alu_noncommit]
  | true => rw [alu_commit, writeO_cycles, store_cycles]

/-- R200, R201: what a call charges, in either mode (D18). -/
theorem bodyJsr_cycles (b : Operand) (c : Bool) (s : State) :
    (bodyJsr b c s).cycles = s.cycles + modeCost b + baseCall := by
  simp only [bodyJsr, resolve_state]
  cases c <;> rfl

/-- R251: no slot's body lowers the counter. -/
theorem slotBody_cycles_le {i : Instr} {c : Bool} {s t : State}
    (h : slotBody i c s = .done t ∨ slotBody i c s = .skipNext t) : s.cycles ≤ t.cycles := by
  have hdone : ∀ u, s.cycles ≤ u.cycles → SlotResult.done u = .done t ∨ SlotResult.done u = .skipNext t →
      s.cycles ≤ t.cycles := by
    intro u hle h
    simp only [SlotResult.done.injEq, reduceCtorEq, or_false] at h
    exact h ▸ hle
  have halu : ∀ f base a b, s.cycles ≤ (alu f base a b c s).cycles := by
    intro f base a b
    rw [alu_cycles]
    omega
  have hcond : ∀ p a b, condResult (cond p a b c s) = .done t ∨ condResult (cond p a b c s) = .skipNext t →
      s.cycles ≤ t.cycles := by
    intro p a b h
    rw [condResult_state h, cond_eq]
    dsimp only
    omega
  cases i
  case jsr b =>
    refine hdone _ ?_ h
    rw [bodyJsr_cycles]
    omega
  case ife | ifn | ifg | ifb => exact hcond _ _ _ h
  all_goals exact hdone _ (halu _ _ _ _) h

/-- R103, R181: no `Exec` lowers the counter, whatever its chain and however it ends. -/
theorem execRec_cycles_le {n : Nat} {w : Word} {c : Bool} {s : State} {r : ExecResult}
    (h : execRec n w c s = some r) : s.cycles ≤ (execReply r).state.cycles := by
  induction n generalizing w c s with
  | zero => cases h
  | succ n ih =>
    cases hd : decode w with
    | error e =>
      cases h.symm.trans (execRec_of_decode_error hd n c s)
      exact Nat.le_refl _
    | ok i =>
      cases hbody : slotBody i c s with
      | done t =>
        simp only [execRec, hd, hbody] at h
        cases h
        exact slotBody_cycles_le (.inl hbody)
      | skipNext t =>
        simp only [execRec, hd, hbody] at h
        calc s.cycles ≤ t.cycles := slotBody_cycles_le (.inr hbody)
          _ = t.advance.cycles := rfl
          _ ≤ (execReply r).state.cycles := ih h

/-- R102: `exec(w)` does not lower the counter. -/
theorem hostExec_cycles_le {w : Word} {s : State} {r : Reply} (h : hostExec w s = some r) :
    s.cycles ≤ r.state.cycles := by
  by_cases hready : s.runState = .running ∧ s.skip = false
  · obtain ⟨hrun, hskip⟩ := hready
    rw [hostExec_running hrun hskip] at h
    obtain ⟨e, hexec, rfl⟩ := Option.map_eq_some_iff.mp h
    exact execRec_cycles_le hexec
  · rw [not_and_or, Bool.not_eq_false] at hready
    cases h.symm.trans (hostExec_ignored hready)
    exact Nat.le_refl _

/-- R108: `run` leaves the counter. -/
theorem hostRun_cycles (s : State) : (hostRun s).state.cycles = s.cycles := by
  unfold hostRun
  split <;> rfl

/-- R213: `halt` leaves the counter. -/
theorem hostHalt_cycles (s : State) : (hostHalt s).state.cycles = s.cycles := by
  unfold hostHalt
  split
  · split <;> rfl
  · rfl
  · rfl

/-- R62: the loader leaves the counter. -/
theorem hostLoad_cycles (ws : List Word) (s : State) : (hostLoad ws s).state.cycles = s.cycles := by
  unfold hostLoad
  split
  · split <;> rfl
  · rfl
  · rfl

/-- R63: the host's write leaves the counter, which no handle names. -/
theorem hostWrite_cycles (h : Handle) (v : Word) (s : State) : (hostWrite h v s).state.cycles = s.cycles := by
  unfold hostWrite
  split
  · split
    · rfl
    · exact store_cycles h v s
  · rfl
  · rfl

end Sys2Proof.Machine

namespace Sys2Proof.Safety

open Sys2Proof.Machine

/-- Settles O20: the step from a counter at 0 is the step from every count, with that count charged before it; what it
charges is the count it ends with. -/
theorem cyclesAreNotFunctional : Obligations.CyclesAreNotFunctional := by
  intro s t n h
  obtain ⟨u, hu⟩ := exists_next { s with cycles := 0 }
  have hfrom : ∀ m, step { s with cycles := m } = .next (u.charge m) := by
    intro m
    rw [← State.charge_of_cycles_zero]
    exact step_charge hu m
  cases h.symm.trans (hfrom s.cycles)
  refine ⟨u.cycles, Nat.add_comm _ _, ?_⟩
  rw [hfrom n, State.charge, Nat.add_comm]
  rfl

/-- Settles O19: a step charges (O20), `exec(w)` does so in each slot of its chain, every other event but reset leaves
the counter; and outside RUNNING a step changes nothing and `exec(w)` is ignored. -/
theorem cyclesAdvanceOnlyInRunningAndNeverDecrease : Obligations.CyclesAdvanceOnlyInRunningAndNeverDecrease := by
  refine ⟨fun s t h => ⟨?stepNeverLowers, fun hidle => ?stepIdle⟩, fun e s r h hreset hboth => ?events, fun _ => rfl⟩
  case stepNeverLowers =>
    obtain ⟨charged, hcharged, -⟩ := cyclesAreNotFunctional s t 0 h
    exact Nat.le.intro hcharged.symm
  case stepIdle =>
    cases h.symm.trans (step_idle hidle)
    rfl
  case events =>
    have hleft : r.state.cycles = s.cycles →
        s.cycles ≤ r.state.cycles ∧ (s.runState ≠ .running → r.state.cycles = s.cycles) :=
      fun hsame => ⟨hsame.ge, fun _ => hsame⟩
    cases e with
    | reset => exact absurd rfl hreset
    | haltWithReset => exact absurd rfl hboth
    | run => cases h; exact hleft (hostRun_cycles s)
    | halt => cases h; exact hleft (hostHalt_cycles s)
    | load ws => cases h; exact hleft (hostLoad_cycles ws s)
    | write hd v => cases h; exact hleft (hostWrite_cycles hd v s)
    | exec w =>
      refine ⟨hostExec_cycles_le h, fun hidle => ?_⟩
      cases h.symm.trans (hostExec_ignored (.inl hidle))
      rfl

end Sys2Proof.Safety
end
